-- ==== Sys2Proof/Word.lean ====
section
/-! DEFINITION. The value types of the Computer-JS CPU: bits, the two word lengths, the two kinds of address. -/

namespace Sys2Proof

/-- A `Bit` is 0 or 1 (spec/00_scope.md R9, R12, spec/10_state.md R20): `false` is 0 and `true` is 1, so no other
value can be written. DESIGN CHOICE (log 1), safe. -/
abbrev Bit := Bool

/-- A 4-bit data word: an ordered sequence of bits, `d[0]` to `d[3]` (R9, R26). -/
abbrev Word4 := Vector Bit 4

/-- An 8-bit instruction word: an ordered sequence of bits, `w[0]` to `w[7]` (R9, R56). Every rule works on the element
indices; the integer view of R10 is only a name for a word (`Sys2Proof.wordToI` in Decode.lean). -/
abbrev Word8 := Vector Bit 8

/-- A data RAM address, 0 to 3 (R50, R51). -/
abbrev RamAddr := Fin 4

/-- An instruction ROM address, 0 to 7 (R50, R56). -/
abbrev RomAddr := Fin 8

/-- The data RAM: four 4-bit registers (R38, R50). -/
abbrev Ram := Vector Word4 4

/-- The instruction ROM: eight 8-bit words (R50, R56). -/
abbrev Rom := Vector Word8 8

/-- `RAM_INIT`: the words written to the RAM at construction, first to last (R8, R60). -/
abbrev RamInit := List (RamAddr × Word4)

end Sys2Proof
end

