-- ==== Sys2Proof/Syntax.lean ====
section
/-! DEFINITION. The instructions, one constructor per row of spec/opcode_table.json, and the assembler's lines. -/

namespace Sys2Proof

/-- The four instructions (spec/00_scope.md R3, spec/30_encoding.md R88). LOAD and STORE have one operand, the address
field as written, `w[2]` and `w[3]`; ADD and XOR have none (R87). The unused bits of a word, and the field of an ADD or
XOR word, are no part of the instruction (R90). -/
inductive Instr where
  /-- LOAD f: A <- RAM[addr] bit 0 (R150). -/
  | load (f2 f3 : Bit)
  /-- STORE f: RAM[addr] <- [A,0,0,0] (R151). -/
  | store (f2 f3 : Bit)
  /-- ADD: A <- A + B modulo 2, the carry thrown away (R160). -/
  | add
  /-- XOR: A <- A xor B (R161). -/
  | xor
  deriving DecidableEq, Repr

/-- An operand of LOAD or STORE in assembler text: the two bits of the field, or the shorthand `RAM[k]` (R92, D14). -/
inductive AsmOperand where
  | field (f2 f3 : Bit)
  | ramWord (k : RamAddr)
  deriving DecidableEq, Repr

/-- One line of assembler (R92, D14, log 18). -/
inductive AsmLine where
  | load (o : AsmOperand)
  | store (o : AsmOperand)
  | add
  | xor
  deriving DecidableEq, Repr

end Sys2Proof
end

