-- ==== Sys2Proof/WellFormed.lean ====
section
/-! DEFINITION. The well-formedness checks: instructions, assembler lines, and raw words as a caller writes them. -/

namespace Sys2Proof

/-- Every instruction is well formed: the fields of `Instr` are bits, the opcode space is full and no field value is
reserved (spec/30_encoding.md R89). The check refuses nothing because the spec refuses nothing. -/
def Instr.wellFormed : Instr → Bool
  | .load _ _ => true
  | .store _ _ => true
  | .add => true
  | .xor => true

/-- `RAM[2]` and `RAM[3]` are refused as operands, because no encoding reaches them (R92, R86). -/
def AsmOperand.wellFormed : AsmOperand → Bool
  | .field _ _ => true
  | .ramWord k => k.val < 2

/-- An assembler line is well formed when its operand is (R92). -/
def AsmLine.wellFormed : AsmLine → Bool
  | .load o => o.wellFormed
  | .store o => o.wellFormed
  | .add => true
  | .xor => true

/-- An integer a raw caller supplies is a bit (R20, R105). -/
def rawBitWellFormed (x : Int) : Bool := x == 0 || x == 1

/-- A list a raw caller supplies is a word of `n` bits: its length is `n` (R29) and its elements are bits (R20). -/
def rawWordWellFormed (n : Nat) (bits : List Int) : Bool :=
  bits.length == n && bits.all rawBitWellFormed

end Sys2Proof
end

