-- ==== Sys2Proof/Decode.lean ====
section
/-! DEFINITION. Decoding, the integer view of a word, the encoder, the opcode table and the assembler. -/

namespace Sys2Proof

/-! ### The integer view of an instruction word (spec/00_scope.md R10, D1) -/

/-- `I(w) = Σ w[i]·2^(7−i)`: the word's display string, `w[0]` first, read as a binary numeral (R10, R82). -/
def wordToI (w : Word8) : Nat :=
  w[0].toNat * 128 + w[1].toNat * 64 + w[2].toNat * 32 + w[3].toNat * 16 +
  w[4].toNat * 8 + w[5].toNat * 4 + w[6].toNat * 2 + w[7].toNat

/-- The word whose integer view is `n` (modulo 2^8): element i is bit 7−i of `n` (R10). -/
def wordOfI (n : Nat) : Word8 :=
  #v[n.testBit 7, n.testBit 6, n.testBit 5, n.testBit 4, n.testBit 3, n.testBit 2, n.testBit 1, n.testBit 0]

/-! ### Decoding (spec/30_encoding.md R81, R84, R88) -/

/-- The instruction a word stands for: `(w[0], w[1])` is the opcode, `(w[2], w[3])` the field, `w[4]` to `w[7]` are
never read (R81, R88, R90). Total: every word decodes (R89). -/
def decode (w : Word8) : Instr :=
  match w[0], w[1] with
  | false, false => .load w[2] w[3]
  | false, true => .store w[2] w[3]
  | true, false => .add
  | true, true => .xor

/-- Why a sequence of bits holds no instruction. -/
inductive DecodeError where
  /-- Fewer than the eight bits of the one format `W8` (R80). Raised by `decodeBits` only; a ROM word always has eight.
  Safe: the CPU never decodes anything but a ROM word (R131). -/
  | wordTooShort (length : Nat)
  deriving DecidableEq, Repr

/-- Decoding of a sequence of bits, `w[0]` first: the first word's instruction and the bits after it. Instructions have
one length (R80), so the only thing it can refuse, by name, is a sequence shorter than a word (log 23). -/
def decodeBits : List Bit → Except DecodeError (Instr × List Bit)
  | w0 :: w1 :: w2 :: w3 :: w4 :: w5 :: w6 :: w7 :: rest =>
    .ok (decode #v[w0, w1, w2, w3, w4, w5, w6, w7], rest)
  | short => .error (.wordTooShort short.length)

/-- The instruction the decoder reads from the word whose integer view is `w` (spec/30_encoding.md R83 numbers the
opcode table so). An instruction is one 8-bit word (R80): more bits than eight are no instruction (log 24). -/
def decodeTableWord (nbits w : Nat) : Option Instr :=
  if nbits ≤ 8 then some (decode (wordOfI (w % 2 ^ nbits))) else none

/-! ### Encoding (R92) -/

/-- The canonical word of an instruction: unused bits 0, and field `00` for ADD and XOR (R92, D14). -/
def encode : Instr → Word8
  | .load f2 f3 => #v[false, false, f2, f3, false, false, false, false]
  | .store f2 f3 => #v[false, true, f2, f3, false, false, false, false]
  | .add => #v[true, false, false, false, false, false, false, false]
  | .xor => #v[true, true, false, false, false, false, false, false]

/-- The word with every bit that its instruction ignores set to 0 (R90, R92). -/
def canonicalWord (w : Word8) : Word8 :=
  #v[w[0], w[1], !w[0] && w[2], !w[0] && w[3], false, false, false, false]

/-! ### The opcode table (R83, R88) -/

/-- One row of the opcode map: the mnemonic and the `I(w)` match and mask. -/
structure OpcodeRow where
  mnemonic : String
  matchBits : Nat
  mask : Nat
  deriving DecidableEq, Repr

/-- The complete opcode map (R88). -/
def opcodeTable : List OpcodeRow :=
  [ ⟨"LOAD", 0x00, 0xC0⟩, ⟨"STORE", 0x40, 0xC0⟩, ⟨"ADD", 0x80, 0xC0⟩, ⟨"XOR", 0xC0, 0xC0⟩ ]

/-- A word is a row's instruction when `I(w) AND mask = match` (R83). -/
def OpcodeRow.accepts (r : OpcodeRow) (w : Word8) : Bool := wordToI w &&& r.mask == r.matchBits

/-- An instruction's mnemonic (R88, R92). -/
def mnemonicOf : Instr → String
  | .load _ _ => "LOAD"
  | .store _ _ => "STORE"
  | .add => "ADD"
  | .xor => "XOR"

/-! ### The assembler (R92, D14, log 18) -/

/-- The field an operand stands for: `RAM[0]` is `00`, `RAM[1]` is `01`, `RAM[2]` and `RAM[3]` are refused (R92). -/
def operandField : AsmOperand → Option (Bit × Bit)
  | .field f2 f3 => some (f2, f3)
  | .ramWord k => if k.val = 0 then some (false, false) else if k.val = 1 then some (false, true) else none

/-- The instruction a line stands for; none where the operand is refused. -/
def asmInstr : AsmLine → Option Instr
  | .load o => (operandField o).map fun f => .load f.1 f.2
  | .store o => (operandField o).map fun f => .store f.1 f.2
  | .add => some .add
  | .xor => some .xor

/-- The assembler: a line's canonical word (R92). -/
def assemble (l : AsmLine) : Option Word8 := (asmInstr l).map encode

/-- The disassembler: any word, by the rows of R88, the field of a LOAD or STORE printed as written and the unused bits
ignored (R92). -/
def disassemble (w : Word8) : AsmLine :=
  match decode w with
  | .load f2 f3 => .load (.field f2 f3)
  | .store f2 f3 => .store (.field f2 f3)
  | .add => .add
  | .xor => .xor

/-- A bit as its character. -/
def bitChar (b : Bit) : Char := if b then '1' else '0'

/-- The text of an operand (R92). -/
def operandText : AsmOperand → List Char
  | .field f2 f3 => [bitChar f2, bitChar f3]
  | .ramWord k => ['R', 'A', 'M', '[', Char.ofNat (48 + k.val), ']']

/-- The text of a line (R92). -/
def asmText : AsmLine → List Char
  | .load o => ['L', 'O', 'A', 'D', ' '] ++ operandText o
  | .store o => ['S', 'T', 'O', 'R', 'E', ' '] ++ operandText o
  | .add => ['A', 'D', 'D']
  | .xor => ['X', 'O', 'R']

/-- The space-separated pieces of a line before its `;` comment. -/
def asmPieces : List Char → List (List Char)
  | [] => [[]]
  | ';' :: _ => [[]]
  | ' ' :: cs => [] :: asmPieces cs
  | c :: cs =>
    match asmPieces cs with
    | [] => [[c]]
    | t :: ts => (c :: t) :: ts

/-- The operand a piece of text spells. -/
def parseOperand : List Char → Option AsmOperand
  | ['0', '0'] => some (.field false false)
  | ['0', '1'] => some (.field false true)
  | ['1', '0'] => some (.field true false)
  | ['1', '1'] => some (.field true true)
  | ['R', 'A', 'M', '[', '0', ']'] => some (.ramWord 0)
  | ['R', 'A', 'M', '[', '1', ']'] => some (.ramWord 1)
  | ['R', 'A', 'M', '[', '2', ']'] => some (.ramWord 2)
  | ['R', 'A', 'M', '[', '3', ']'] => some (.ramWord 3)
  | _ => none

/-- The line a text spells: a mnemonic, for LOAD and STORE an operand, then perhaps a comment (R92). -/
def parseAsm (text : List Char) : Option AsmLine :=
  match (asmPieces text).filter (fun t => !t.isEmpty) with
  | [['L', 'O', 'A', 'D'], o] => (parseOperand o).map .load
  | [['S', 'T', 'O', 'R', 'E'], o] => (parseOperand o).map .store
  | [['A', 'D', 'D']] => some .add
  | [['X', 'O', 'R']] => some .xor
  | _ => none

end Sys2Proof
end

