-- ==== Sys2Proof/Machine/Gates.lean ====
section
/-! DEFINITION. The gate primitives (spec/40_gates_alu.md R100 to R104), total pure functions on bits. -/

namespace Sys2Proof.Machine

/-- NOT(a) = 1 − a (R100). -/
def gateNot (a : Bit) : Bit :=
  match a with
  | false => true
  | true => false

/-- AND(a, b), by the table of R101. -/
def gateAnd (a b : Bit) : Bit :=
  match a, b with
  | true, true => true
  | _, _ => false

/-- OR(a, b), by the OR column of R101's table (R102). -/
def gateOr (a b : Bit) : Bit :=
  match a, b with
  | false, false => false
  | _, _ => true

/-- XOR(a, b), by the XOR column of R101's table (R103). -/
def gateXor (a b : Bit) : Bit :=
  match a, b with
  | false, false => false
  | false, true => true
  | true, false => true
  | true, true => false

end Sys2Proof.Machine
end

