-- ==== Sys2Proof/Machine/Flags.lean ====
section
/-! DEFINITION. Flag computations. The CPU has no flags and no condition codes (spec/10_state.md R35); the one
flag-like value the datapath computes is the carry-out, which the CPU throws away. -/

namespace Sys2Proof.Machine

/-- The carry-out of the full adder, `OR(AND(a, b), AND(XOR(a, b), cin))` (spec/40_gates_alu.md R106). -/
def carryOut (a b cin : Bit) : Bit :=
  gateOr (gateAnd a b) (gateAnd (gateXor a b) cin)

end Sys2Proof.Machine
end

