-- ==== Sys2Proof/Machine/Alu.lean ====
section
/-! DEFINITION. The full adder, the 1-bit ALU and the control decoder: the combinational datapath, composed from gates
(spec/40_gates_alu.md R106 to R113, spec/30_encoding.md R84, R85). -/

namespace Sys2Proof.Machine

/-- The full adder's two outputs. -/
structure AdderOut where
  sum : Bit
  cout : Bit
  deriving DecidableEq, Repr

/-- The full adder (R106): `s1 = XOR(a,b)`, `sum = XOR(s1,cin)`, `cout = OR(AND(a,b), AND(s1,cin))`. -/
def fullAdder (a b cin : Bit) : AdderOut :=
  { sum := gateXor (gateXor a b) cin, cout := carryOut a b cin }

/-- The four control signals, combinational and never stored (R37, R84). -/
structure Signals where
  load : Bit
  store : Bit
  add : Bit
  xor : Bit
  deriving DecidableEq, Repr

/-- The control decoder `CU(op0, op1)`, as gates (R84; the network is the spec's choice, D15, log 14). -/
def controlUnit (op0 op1 : Bit) : Signals :=
  { load := gateAnd (gateNot op0) (gateNot op1)
    store := gateAnd (gateNot op0) op1
    add := gateAnd op0 (gateNot op1)
    xor := gateAnd op0 op1 }

/-- The ALU's two outputs (R108). -/
structure AluOut where
  result : Bit
  cout : Bit
  deriving DecidableEq, Repr

/-- `ALU1(a, b, cin, [op0, op1])` (R108): the multiplexer of R109 over the partial results r0 (AND), r1 (OR), r2 (the
adder's sum) and r3 (XOR). `cout` is the adder's carry-out whatever the operation (R111). Only the function is normative
(R110; D15, log 14). -/
def alu1 (a b cin op0 op1 : Bit) : AluOut :=
  let fa := fullAdder a b cin
  let r0 := gateAnd (gateAnd (gateNot op0) (gateNot op1)) (gateAnd a b)
  let r1 := gateAnd (gateAnd (gateNot op0) op1) (gateOr a b)
  let r2 := gateAnd (gateAnd op0 (gateNot op1)) fa.sum
  let r3 := gateAnd (gateAnd op0 op1) (gateXor a b)
  { result := gateOr (gateOr r0 r1) (gateOr r2 r3), cout := fa.cout }

end Sys2Proof.Machine
end

