-- ==== Sys2Proof/Machine/Operands.lean ====
section
/-! DEFINITION. Operand forms: the derived address, zero extension, and the two conversions between the 1-bit accumulator
and a 4-bit data word (spec/30_encoding.md R86, R87, spec/10_state.md R31). -/

namespace Sys2Proof.Machine

/-- The derived address, `addr = OR(w[3], AND(w[2], 1))`, for the field `f2 = w[2]`, `f3 = w[3]` (R86). -/
def derivedAddr (f2 f3 : Bit) : Bit := gateOr f3 (gateAnd f2 true)

/-- `zext_2`: a 1-bit value as a RAM address (R11). -/
def zext2 (v : Bit) : RamAddr := if v then 1 else 0

/-- `zext_3`: a 1-bit value as a ROM address (R11). -/
def zext3 (v : Bit) : RomAddr := if v then 1 else 0

/-- The RAM address of LOAD's and STORE's operand: `zext_2` of the derived address (R86, R87). -/
def operandAddr (f2 f3 : Bit) : RamAddr := zext2 (derivedAddr f2 f3)

/-- What LOAD takes of a data word: bit 0 (R31, R150). -/
def activeBit (d : Word4) : Bit := d[0]

/-- What STORE makes of the accumulator: the word [A,0,0,0] (R31, R151). -/
def widen (a : Bit) : Word4 := #v[a, false, false, false]

/-- The numeric view of a data word, `d[0] + 2·d[1] + 4·d[2] + 8·d[3]` (R10, D2, log 3). No rule reads it. -/
def wordValue (d : Word4) : Nat :=
  d[0].toNat + 2 * d[1].toNat + 4 * d[2].toNat + 8 * d[3].toNat

end Sys2Proof.Machine
end

