-- ==== Sys2Proof/Config.lean ====
section
/-! DEFINITION. What is fixed when the CPU is constructed: the two parameters of spec/00_scope.md R8 with their defaults,
which are the shipped hardware. There is no free value: the spec leaves no result of an instruction open. -/

namespace Sys2Proof.Config

/-- The default `ROM_IMAGE`, the shipped program (spec/20_memory.md R59), each word written `w[0]` first (R82).
The literals are the spec's and were not audited against the repository (D7, log 8). -/
def romImage : Rom :=
  #v[ #v[false, false, false, false, false, false, false, false],  -- 0: LOAD 00
      #v[true,  false, false, false, false, false, false, false],  -- 1: ADD
      #v[false, true,  false, true,  false, false, false, false],  -- 2: STORE 01
      #v[true,  true,  false, false, false, false, false, false],  -- 3: XOR
      #v[false, false, false, false, false, false, false, false],  -- 4: LOAD 00
      #v[false, false, false, false, false, false, false, false],  -- 5: LOAD 00
      #v[false, false, false, false, false, false, false, false],  -- 6: LOAD 00
      #v[false, false, false, false, false, false, false, false] ] -- 7: LOAD 00

/-- The default `RAM_INIT`: RAM[0] <- [1,0,0,0], then RAM[1] <- [0,0,0,0] (R8, R60; D7, log 8). -/
def ramInit : RamInit :=
  [ (0, #v[true, false, false, false]),
    (1, #v[false, false, false, false]) ]

end Sys2Proof.Config
end

