-- ==== Sys2Proof/Machine/Storage.lean ====
section
/-! DEFINITION. The storage components: flip-flop, 4-bit register, RAM and ROM (spec/10_state.md R21 to R29,
spec/20_memory.md R51 to R60). Each function maps the component's contents to its new contents or to the value read. -/

namespace Sys2Proof.Machine

/-- A flip-flop's `q` when created (R24). -/
def ffInitial : Bit := false

/-- `clock(d, clk)` on a flip-flop holding `q`: q takes d at clock level 1 and keeps its value at level 0, on every call,
with no edge detection (R22, R25). DESIGN CHOICE of the spec (D4, log 5): one discrete write per call. -/
def ffClock (q d clk : Bit) : Bit := if clk then d else q

/-- `read()` on a flip-flop (R23). -/
def ffRead (q : Bit) : Bit := q

/-- A 4-bit register when created: four new flip-flops (R24, R26). -/
def registerInitial : Word4 := #v[ffInitial, ffInitial, ffInitial, ffInitial]

/-- `load(bits, clk)`: all four flip-flops clocked in parallel with one level (R27). -/
def registerLoad (r bits : Word4) (clk : Bit) : Word4 :=
  #v[ffClock r[0] bits[0] clk, ffClock r[1] bits[1] clk, ffClock r[2] bits[2] clk, ffClock r[3] bits[3] clk]

/-- `read()` on a register: its four flip-flops' bits (R28). -/
def registerRead (r : Word4) : Word4 := #v[ffRead r[0], ffRead r[1], ffRead r[2], ffRead r[3]]

/-- The RAM when created: four new registers (R250 step 1). -/
def ramInitial : Ram := #v[registerInitial, registerInitial, registerInitial, registerInitial]

/-- `RAM.write(addr, data, clk)`: forwards to the addressed register's load (R51). -/
def ramWrite (ram : Ram) (addr : RamAddr) (data : Word4) (clk : Bit) : Ram :=
  ram.set addr.val (registerLoad ram[addr.val] data clk)

/-- `RAM.read(addr)`: the addressed register's word (R52). -/
def ramRead (ram : Ram) (addr : RamAddr) : Word4 := registerRead ram[addr.val]

/-- `RAM_INIT` applied at construction, first write first, at clock level 1 (R60, R250 step 4). -/
def applyRamInit (ram : Ram) : RamInit → Ram
  | [] => ram
  | (addr, data) :: rest => applyRamInit (ramWrite ram addr data true) rest

/-- `ROM.read(addr)`: the word at the address, unchanged (R56). -/
def romRead (rom : Rom) (addr : RomAddr) : Word8 := rom[addr.val]

end Sys2Proof.Machine
end

