-- ==== Sys2Proof/Machine/State.lean ====
section
/-! DEFINITION. The state of the CPU, the reasons it can stop, and the state after construction. -/

namespace Sys2Proof.Machine

/-- The components that can raise a contract violation (spec/00_scope.md R2, spec/60_exceptions.md R201). -/
inductive Component where
  | notGate
  | andGate
  | orGate
  | xorGate
  | flipFlop
  | register
  | ram
  | rom
  deriving DecidableEq, Repr

/-- The contract violations (R201, D9, log 11). Each records its name and the component that raised it, and nothing else.
All four arise only at raw component calls (Machine/Raw.lean); `step` raises none (R203). All are safe: a fault stops the
machine with the state it had before the call (R202). -/
inductive Fault where
  /-- F_BIT, code 1: an input outside 0 and 1. Raised by any gate (R105) and by a flip-flop's `clock`. Safe. -/
  | fBit (component : Component)
  /-- F_LEN, code 2: a register load, or a RAM write, of a sequence whose length is not 4. Raised by the register (R29),
  for a RAM write too, because the RAM forwards to the register (R51; log 25). Safe. -/
  | fLen (component : Component)
  /-- F_RAM_ADDR, code 3: a RAM address outside 0..3. Raised by the RAM (R53). Safe. -/
  | fRamAddr (component : Component)
  /-- F_ROM_ADDR, code 4: a ROM address outside 0..7. Raised by the ROM (R57). Safe. -/
  | fRomAddr (component : Component)
  deriving DecidableEq, Repr

/-- Why an instruction has no meaning in the model. -/
inductive Refusal where
  /-- The instruction has no meaning yet. Raised by an arm of `exec` only; no arm raises it. Safe. -/
  | notModelled (mnemonic : String)
  deriving DecidableEq, Repr

/-- The architectural state, exactly the list of spec/10_state.md R30. -/
structure State where
  /-- A, the accumulator (R31). -/
  a : Bit
  /-- B, the second operand (R32). -/
  b : Bit
  /-- PC, the program counter (R34). -/
  pc : Bit
  /-- RAM.reg[0] to RAM.reg[3], the data memory (R38). -/
  ram : Ram
  /-- ROM.word[0] to ROM.word[7], the instruction memory; no instruction and no step writes it (R58). -/
  rom : Rom
  /-- clk, the clock level that gates every write of a step (R36; D3, log 4). -/
  clk : Bit
  deriving DecidableEq, Repr

/-- The state after construction with the given parameters (spec/70_reset_and_hazards.md R250): every flip-flop 0, the
ROM set to the image, the clock level 1, then `RAM_INIT` written. -/
def State.construct (romImage : Rom) (ramInit : RamInit) : State :=
  { a := ffInitial
    b := ffInitial
    pc := ffInitial
    ram := applyRamInit ramInitial ramInit
    rom := romImage
    clk := true }

/-- The state right after reset: construction with the default parameters (R40, R250; D6, log 7). -/
def State.reset : State := State.construct Config.romImage Config.ramInit

end Sys2Proof.Machine
end

