-- ==== Sys2Proof/Machine/Ops.lean ====
section
/-! DEFINITION. The named operations over the CPU's registers and memories, each the pseudocode primitive of
spec/00_scope.md R11 it is named after. Every read and write of State goes through them.
There is no operation that takes an exception and none that returns from one: the hardware has no trap entry, saves no
state and has no return instruction (spec/60_exceptions.md R206, R207; log 12). -/

namespace Sys2Proof.Machine

/-- `A <-clk v`: the accumulator's flip-flop clocked under the CPU's level (R11, R22). -/
def clockA (s : State) (v : Bit) : State := { s with a := ffClock s.a v s.clk }

/-- `PC <-clk v` (R11, R22). -/
def clockPc (s : State) (v : Bit) : State := { s with pc := ffClock s.pc v s.clk }

/-- `MemRead(addr, 4)` (R11, R52). -/
def memRead (s : State) (addr : RamAddr) : Word4 := ramRead s.ram addr

/-- `MemWrite(addr, 4, data)` under the CPU's clock level (R11, R51). -/
def memWrite (s : State) (addr : RamAddr) (data : Word4) : State :=
  { s with ram := ramWrite s.ram addr data s.clk }

/-- Stage 1 of a step: the ROM word at `zext_3(PC)` (spec/41_sequencer.md R131). -/
def fetch (s : State) : Word8 := romRead s.rom (zext3 (ffRead s.pc))

/-- Stage 5 of a step: `PC <-clk XOR(PC, 1)` (R135). -/
def updatePc (s : State) : State := clockPc s (gateXor (ffRead s.pc) true)

/-- What a step adds after the execute stage: the PC update; a stop of the execute stage is the whole step's, with no
partial commit (R135, R138). -/
def completeCycle : Host.Outcome State Fault Refusal → Host.Outcome State Fault Refusal
  | .next s => .next (updatePc s)
  | .fault f => .fault f
  | .refused r => .refused r

/-- The host's `set_clk(v)` (spec/70_reset_and_hazards.md R263; D3, log 4). -/
def setClk (s : State) (v : Bit) : State := { s with clk := v }

/-- The word whose integer view is `w`'s low `nbits` bits, put where the next step fetches: the ROM word at `zext_3(PC)`.
It stands for loading a program from outside the machine (`ROM_IMAGE`, R8); no instruction and no step does it (log 19). -/
def placeFetchWord (s : State) (nbits w : Nat) : State :=
  { s with rom := s.rom.set (zext3 s.pc).val (wordOfI (w % 2 ^ nbits)) }

end Sys2Proof.Machine
end

