-- ==== Sys2Proof/Machine/AddXor.lean ====
section
/-! DEFINITION. The ALU instructions ADD and XOR (spec/43_add_xor.md). Each meaning is the execute stage of the step
(spec/41_sequencer.md R134); the PC update is stage 5 and stands in Step.lean (log 20). -/

namespace Sys2Proof.Machine

/-- ADD (R160): `r <- ALU1(A, B, 0, [1,0])`, then `A <-clk r.result`; `r.cout` is thrown away. -/
def execAdd (s : State) : Host.Outcome State Fault Refusal :=
  .next (clockA s (alu1 (ffRead s.a) (ffRead s.b) false true false).result)

/-- XOR (R161): `r <- ALU1(A, B, 0, [1,1])`, then `A <-clk r.result`; `r.cout` is thrown away. -/
def execXor (s : State) : Host.Outcome State Fault Refusal :=
  .next (clockA s (alu1 (ffRead s.a) (ffRead s.b) false true true).result)

end Sys2Proof.Machine
end

