-- ==== Sys2Proof/Machine/LoadStore.lean ====
section
/-! DEFINITION. The data transfer instructions LOAD and STORE (spec/42_load_store.md). Each meaning is the execute stage of
the step (spec/41_sequencer.md R134); the PC update is stage 5 and stands in Step.lean (log 20). -/

namespace Sys2Proof.Machine

/-- LOAD (R150): `d <- MemRead(zext_2(addr), 4)`, then `A <-clk d[0]`. -/
def execLoad (f2 f3 : Bit) (s : State) : Host.Outcome State Fault Refusal :=
  .next (clockA s (activeBit (memRead s (operandAddr f2 f3))))

/-- STORE (R151): `MemWrite(zext_2(addr), 4, [A,0,0,0])`. -/
def execStore (f2 f3 : Bit) (s : State) : Host.Outcome State Fault Refusal :=
  .next (memWrite s (operandAddr f2 f3) (widen (ffRead s.a)))

end Sys2Proof.Machine
end

