-- ==== Sys2Proof/Machine/Dispatch.lean ====
section
/-! DEFINITION. Dispatch: one arm per instruction (spec/41_sequencer.md R134: exactly one action runs in a step). -/

namespace Sys2Proof.Machine

/-- The execute stage of a step (R134). -/
def exec (i : Instr) (s : State) : Host.Outcome State Fault Refusal :=
  match i with
  | .load f2 f3 => Sys2Proof.Machine.execLoad f2 f3 s
  | .store f2 f3 => Sys2Proof.Machine.execStore f2 f3 s
  | .add => Sys2Proof.Machine.execAdd s
  | .xor => Sys2Proof.Machine.execXor s

end Sys2Proof.Machine
end

