-- ==== Sys2Proof/Machine/Step.lean ====
section
/-! DEFINITION. One call of `CPU.step()` (spec/41_sequencer.md R130): fetch, decode, execute, PC update. -/

namespace Sys2Proof.Machine

/-- One whole instruction cycle (R130 to R135). The control stage (R133) is the choice of `exec`'s arm; the gate-level
cycle with its four independent conditionals is `sequencerCycle` in Machine/Sequencer.lean. -/
def step (s : State) : Host.Outcome State Fault Refusal :=
  completeCycle (exec (decode (fetch s)) s)

/-- The state with the instruction whose opcode-table number is `w` stored where the next step fetches (log 19). -/
def State.withFetchWord (s : State) (nbits w : Nat) : State := placeFetchWord s nbits w

end Sys2Proof.Machine
end

