-- ==== Sys2Proof/Machine/Raw.lean ====
section
/-! DEFINITION. The components at their raw interface: integers for bits and addresses, lists for words, as the source's
calls take them. A call that breaks its contract fails at the component's boundary with the fault of
spec/60_exceptions.md R201 and no new contents, so nothing changes (R202); a call that keeps it does what the typed
component does. Checks run in call order: address, then length, then bits (R205; D18, log 13). -/

namespace Sys2Proof.Machine

/-- A bit as the integer a raw call passes. -/
def bitInt (b : Bit) : Int := if b then 1 else 0

/-- A raw bit at a component's boundary: anything outside {0, 1} is F_BIT (R105, R201; D16). -/
def rawBit (c : Component) (x : Int) : Except Fault Bit :=
  if x = 0 then .ok false else if x = 1 then .ok true else .error (.fBit c)

/-- Raw NOT (R100, R105). -/
def rawNot (a : Int) : Except Fault Bit := do
  let a ← rawBit .notGate a
  return gateNot a

/-- Raw AND (R101, R105). -/
def rawAnd (a b : Int) : Except Fault Bit := do
  let a ← rawBit .andGate a
  let b ← rawBit .andGate b
  return gateAnd a b

/-- Raw OR (R102, R105). -/
def rawOr (a b : Int) : Except Fault Bit := do
  let a ← rawBit .orGate a
  let b ← rawBit .orGate b
  return gateOr a b

/-- Raw XOR (R103, R105). -/
def rawXor (a b : Int) : Except Fault Bit := do
  let a ← rawBit .xorGate a
  let b ← rawBit .xorGate b
  return gateXor a b

/-- The full adder composed of raw gates, in R106's order. -/
def rawFullAdder (a b cin : Int) : Except Fault AdderOut := do
  let s1 ← rawXor a b
  let sum ← rawXor (bitInt s1) cin
  let c1 ← rawAnd a b
  let c2 ← rawAnd (bitInt s1) cin
  let cout ← rawOr (bitInt c1) (bitInt c2)
  return { sum := sum, cout := cout }

/-- The control decoder composed of raw gates, in R84's order. -/
def rawControlUnit (op0 op1 : Int) : Except Fault Signals := do
  let n0 ← rawNot op0
  let n1 ← rawNot op1
  let load ← rawAnd (bitInt n0) (bitInt n1)
  let store ← rawAnd (bitInt n0) op1
  let add ← rawAnd op0 (bitInt n1)
  let xor ← rawAnd op0 op1
  return { load := load, store := store, add := add, xor := xor }

/-- The ALU composed of raw gates, in R109's order: the adder, the one-hot selects, the masked partial results, the sum of
them by OR. -/
def rawAlu1 (a b cin op0 op1 : Int) : Except Fault AluOut := do
  let fa ← rawFullAdder a b cin
  let sel ← rawControlUnit op0 op1
  let ab ← rawAnd a b
  let r0 ← rawAnd (bitInt sel.load) (bitInt ab)
  let ob ← rawOr a b
  let r1 ← rawAnd (bitInt sel.store) (bitInt ob)
  let r2 ← rawAnd (bitInt sel.add) (bitInt fa.sum)
  let xb ← rawXor a b
  let r3 ← rawAnd (bitInt sel.xor) (bitInt xb)
  let r01 ← rawOr (bitInt r0) (bitInt r1)
  let r23 ← rawOr (bitInt r2) (bitInt r3)
  let result ← rawOr (bitInt r01) (bitInt r23)
  return { result := result, cout := fa.cout }

/-- Raw `clock(d, clk)` on a flip-flop (R22, R201). -/
def rawFfClock (q : Bit) (d clk : Int) : Except Fault Bit := do
  let d ← rawBit .flipFlop d
  let clk ← rawBit .flipFlop clk
  return ffClock q d clk

/-- Raw `load(bits, clk)` on a register: another length than 4 is F_LEN (R29), then the four flip-flops are clocked. -/
def rawRegisterLoad (r : Word4) (bits : List Int) (clk : Int) : Except Fault Word4 :=
  match bits with
  | [x0, x1, x2, x3] => do
    let q0 ← rawFfClock r[0] x0 clk
    let q1 ← rawFfClock r[1] x1 clk
    let q2 ← rawFfClock r[2] x2 clk
    let q3 ← rawFfClock r[3] x3 clk
    return #v[q0, q1, q2, q3]
  | _ => .error (.fLen .register)

/-- A raw RAM address: outside 0..3 is F_RAM_ADDR (R53). -/
def rawRamAddr (addr : Int) : Except Fault RamAddr :=
  if h : 0 ≤ addr ∧ addr < 4 then .ok ⟨addr.toNat, by omega⟩ else .error (.fRamAddr .ram)

/-- A raw ROM address: outside 0..7 is F_ROM_ADDR (R57). -/
def rawRomAddr (addr : Int) : Except Fault RomAddr :=
  if h : 0 ≤ addr ∧ addr < 8 then .ok ⟨addr.toNat, by omega⟩ else .error (.fRomAddr .rom)

/-- Raw `RAM.read(addr)` (R52, R53). -/
def rawRamRead (ram : Ram) (addr : Int) : Except Fault Word4 := do
  let k ← rawRamAddr addr
  return ramRead ram k

/-- Raw `RAM.write(addr, data, clk)`: the address check, then the addressed register's load (R51, R53, R205). -/
def rawRamWrite (ram : Ram) (addr : Int) (data : List Int) (clk : Int) : Except Fault Ram := do
  let k ← rawRamAddr addr
  let word ← rawRegisterLoad ram[k.val] data clk
  return ram.set k.val word

/-- Raw `ROM.read(addr)` (R56, R57). -/
def rawRomRead (rom : Rom) (addr : Int) : Except Fault Word8 := do
  let k ← rawRomAddr addr
  return romRead rom k

/-- A fault's name (R201). -/
def faultName : Fault → String
  | .fBit _ => "F_BIT"
  | .fLen _ => "F_LEN"
  | .fRamAddr _ => "F_RAM_ADDR"
  | .fRomAddr _ => "F_ROM_ADDR"

/-- A fault's code (R201; the names and codes are the spec's own, D9). -/
def faultCode : Fault → Nat
  | .fBit _ => 1
  | .fLen _ => 2
  | .fRamAddr _ => 3
  | .fRomAddr _ => 4

/-- The component a fault records (R201). -/
def faultComponent : Fault → Component
  | .fBit c => c
  | .fLen c => c
  | .fRamAddr c => c
  | .fRomAddr c => c

end Sys2Proof.Machine
end

