-- ==== Sys2Proof/Machine/HostPort.lean ====
section
/-! DEFINITION. What the host sees of the block and may do to it: the observer, the trace, the ports, the host's actions and,
for component tests only, direct component calls (spec/41_sequencer.md R140, R144, spec/70_reset_and_hazards.md R261 to
R263). -/

namespace Sys2Proof.Machine

/-! ### The observer and the trace -/

/-- An observation: the 5-tuple of R140. -/
structure Obs where
  a : Bit
  b : Bit
  pc : Bit
  ram0 : Bit
  ram1 : Bit
  deriving DecidableEq, Repr

/-- `debug()`: A, B, PC, RAM[0] bit 0 and RAM[1] bit 0 (R140, R213). A function of the state, so it changes none. -/
def observe (s : State) : Obs :=
  { a := ffRead s.a, b := ffRead s.b, pc := ffRead s.pc, ram0 := (ramRead s.ram 0)[0], ram1 := (ramRead s.ram 1)[0] }

/-- The trace of `n` steps, observed after each step (R262; D19, log 15). It ends early where a step stops. -/
def traceAfter : Nat → State → List Obs
  | 0, _ => []
  | n + 1, s =>
    match step s with
    | .next t => observe t :: traceAfter n t
    | .fault _ => []
    | .refused _ => []

/-- The trace of `n` steps, observed before each step (the other convention R262 names). -/
def traceBefore : Nat → State → List Obs
  | 0, _ => []
  | n + 1, s =>
    match step s with
    | .next t => observe s :: traceBefore n t
    | .fault _ => [observe s]
    | .refused _ => [observe s]

/-! ### The block and the shipped host's actions -/

/-- Whether the block still takes steps (R202). `refused` is the model's own and arises for no instruction. -/
inductive Condition where
  | running
  | faulted (f : Fault)
  | refused (r : Refusal)
  deriving DecidableEq, Repr

/-- The CORE block: the CPU's state, and the terminal condition a fault puts it in (R202). -/
structure Block where
  cpu : State
  condition : Condition
  deriving DecidableEq, Repr

/-- A newly constructed block (R250). -/
def Block.construct (romImage : Rom) (ramInit : RamInit) : Block :=
  { cpu := State.construct romImage ramInit, condition := .running }

/-- The output ports (R144; D5, log 6). -/
structure Ports where
  obsA : Bit
  obsB : Bit
  obsPC : Bit
  obsRam0 : Bit
  obsRam1 : Bit
  fault : Option Nat
  deriving DecidableEq, Repr

/-- The block's ports: the observation, and the fault's code once a fault has stopped the machine (R144). -/
def blockPorts (k : Block) : Ports :=
  let o := observe k.cpu
  { obsA := o.a, obsB := o.b, obsPC := o.pc, obsRam0 := o.ram0, obsRam1 := o.ram1
    fault := match k.condition with
      | .faulted f => some (faultCode f)
      | .running => none
      | .refused _ => none }

/-- What the host of the shipped hardware may do (R263): `rst`, `step_req`, the observation, and `clk_set` of R144. -/
inductive HostAction where
  | construct (romImage : Rom) (ramInit : RamInit)
  | step
  | debug
  | setClk (v : Bit)
  deriving DecidableEq, Repr

/-- One `step()` of a running block: a fault leaves the CPU's state as it was and is terminal (R138, R202). -/
def blockStep (s : State) : Block :=
  match step s with
  | .next t => { cpu := t, condition := .running }
  | .fault f => { cpu := s, condition := .faulted f }
  | .refused r => { cpu := s, condition := .refused r }

/-- The effect of a host action, and what it returns. A stopped block takes no step and no clock level; construction makes
a fresh block in its place (R202, R253; log 21). -/
def hostAct (action : HostAction) (k : Block) : Block × Option Obs :=
  match action with
  | .construct romImage ramInit => (Block.construct romImage ramInit, none)
  | .debug => (k, some (observe k.cpu))
  | .step =>
    match k.condition with
    | .running => (blockStep k.cpu, none)
    | .faulted _ => (k, none)
    | .refused _ => (k, none)
  | .setClk v =>
    match k.condition with
    | .running => ({ k with cpu := setClk k.cpu v }, none)
    | .faulted _ => (k, none)
    | .refused _ => (k, none)

/-- The host action `reset`: construction with the default parameters (R253; D6, log 7). -/
def HostAction.reset : HostAction := .construct Config.romImage Config.ramInit

/-- A list of host actions, first to last. -/
def hostRun : List HostAction → Block → Block
  | [], k => k
  | action :: rest, k => hostRun rest (hostAct action k).1

/-! ### Direct component calls (component tests only; R263, D21, log 17, log 27, log 28) -/

/-- The flip-flops a direct call may name. DESIGN CHOICE (log 28): every flip-flop the CPU owns, A, B and PC (R30) and the
sixteen of the RAM's registers, `RAM.reg[k].ff[i]` (R26, R250); R263 does not say which. -/
inductive FlipFlopName where
  | a
  | b
  | pc
  | ramBit (k : RamAddr) (i : Fin 4)
  deriving DecidableEq, Repr

/-- A direct call of a component the CPU owns, by the operations of R144's internal interfaces, with raw arguments (R263).
Which component is called is a name, not a raw argument, so none that does not exist can be called (log 28). -/
inductive ComponentCall where
  | gateNot (a : Int)
  | gateAnd (a b : Int)
  | gateOr (a b : Int)
  | gateXor (a b : Int)
  | fullAdder (a b cin : Int)
  | alu (a b cin op0 op1 : Int)
  | controlUnit (op0 op1 : Int)
  | flipFlopClock (cell : FlipFlopName) (d clk : Int)
  | flipFlopRead (cell : FlipFlopName)
  | registerLoad (k : RamAddr) (bits : List Int) (clk : Int)
  | registerRead (k : RamAddr)
  | ramWrite (addr : Int) (data : List Int) (clk : Int)
  | ramRead (addr : Int)
  | romRead (addr : Int)
  deriving DecidableEq, Repr

/-- A flip-flop's `q`. -/
def flipFlopOf (s : State) : FlipFlopName → Bit
  | .a => s.a
  | .b => s.b
  | .pc => s.pc
  | .ramBit k i => s.ram[k.val][i.val]

/-- A flip-flop's `q` replaced. -/
def withFlipFlop (s : State) (v : Bit) : FlipFlopName → State
  | .a => { s with a := v }
  | .b => { s with b := v }
  | .pc => { s with pc := v }
  | .ramBit k i => { s with ram := s.ram.set k.val (s.ram[k.val].set i.val v) }

/-- A direct call's new state and returned bits, or its fault (R201). -/
def callComponent (call : ComponentCall) (s : State) : Except Fault (State × List Bit) :=
  match call with
  | .gateNot a => do
    let r ← rawNot a
    return (s, [r])
  | .gateAnd a b => do
    let r ← rawAnd a b
    return (s, [r])
  | .gateOr a b => do
    let r ← rawOr a b
    return (s, [r])
  | .gateXor a b => do
    let r ← rawXor a b
    return (s, [r])
  | .fullAdder a b cin => do
    let r ← rawFullAdder a b cin
    return (s, [r.sum, r.cout])
  | .alu a b cin op0 op1 => do
    let r ← rawAlu1 a b cin op0 op1
    return (s, [r.result, r.cout])
  | .controlUnit op0 op1 => do
    let r ← rawControlUnit op0 op1
    return (s, [r.load, r.store, r.add, r.xor])
  | .flipFlopClock cell d clk => do
    let q ← rawFfClock (flipFlopOf s cell) d clk
    return (withFlipFlop s q cell, [])
  | .flipFlopRead cell => return (s, [ffRead (flipFlopOf s cell)])
  | .registerLoad k bits clk => do
    let word ← rawRegisterLoad s.ram[k.val] bits clk
    return ({ s with ram := s.ram.set k.val word }, [])
  | .registerRead k => return (s, (registerRead s.ram[k.val]).toList)
  | .ramWrite addr data clk => do
    let ram ← rawRamWrite s.ram addr data clk
    return ({ s with ram := ram }, [])
  | .ramRead addr => do
    let d ← rawRamRead s.ram addr
    return (s, d.toList)
  | .romRead addr => do
    let w ← rawRomRead s.rom addr
    return (s, w.toList)

/-- What a component test may do: the shipped host's actions, or a direct call. -/
inductive TestAction where
  | shipped (action : HostAction)
  | call (c : ComponentCall)
  deriving DecidableEq, Repr

/-- What an action hands back. -/
inductive Response where
  | nothing
  | observation (o : Obs)
  | bits (l : List Bit)
  deriving DecidableEq, Repr

/-- The effect of a test action. A direct call that faults leaves the CPU's state as it was and stops the block (R202).
DESIGN CHOICE (log 27): a direct call on a block that is already stopped, a read or a pure gate call included, is ignored:
nothing changes and nothing is returned. The spec says only that a faulted machine takes no further steps. -/
def testAct (action : TestAction) (k : Block) : Block × Response :=
  match action with
  | .shipped a =>
    match hostAct a k with
    | (k', some o) => (k', .observation o)
    | (k', none) => (k', .nothing)
  | .call c =>
    match k.condition with
    | .running =>
      match callComponent c k.cpu with
      | .ok (s, l) => ({ k with cpu := s }, .bits l)
      | .error f => ({ k with condition := .faulted f }, .nothing)
    | .faulted _ => (k, .nothing)
    | .refused _ => (k, .nothing)

end Sys2Proof.Machine
end

