-- ==== Sys2Proof/Machine/Memory.lean ====
section
/-! DEFINITION. The data RAM's contents as a sparse list of cells in one canonical form. State holds the RAM as the spec
gives it, four 4-bit registers (spec/10_state.md R38), and the list is computed from it, so it is stored once (log 22). -/

namespace Sys2Proof.Machine

/-- What an unlisted address reads as: [0,0,0,0], the value of four new flip-flops (R24). -/
def unlistedCell : BitVec 8 := 0

/-- The canonical form: addresses strictly rising and inside 0..3 (spec/20_memory.md R50), each entry the value of a 4-bit
word (R10), and none equal to what an unlisted address reads as. -/
def memoryWf (m : List Host.Cell) : Bool :=
  (m.map Prod.fst).Pairwise (· < ·) && m.all fun c => c.1 < 4 && c.2 != unlistedCell && c.2.toNat < 16

/-- One word of the RAM as a cell, or nothing where the address need not be listed. -/
def ramCell (addr : Nat) (d : Word4) : List Host.Cell :=
  if BitVec.ofNat 8 (wordValue d) = unlistedCell then [] else [(addr, BitVec.ofNat 8 (wordValue d))]

/-- The RAM as a list of cells. -/
def ramCells (ram : Ram) : List Host.Cell :=
  ramCell 0 ram[0] ++ ramCell 1 ram[1] ++ ramCell 2 ram[2] ++ ramCell 3 ram[3]

/-- Reading a list of cells at an address. -/
def cellsRead (m : List Host.Cell) (addr : Nat) : BitVec 8 :=
  match m with
  | [] => unlistedCell
  | c :: rest => if c.1 = addr then c.2 else cellsRead rest addr

end Sys2Proof.Machine
end

