-- ==== Sys2Proof/Machine/Sequencer.lean ====
section
/-! DEFINITION. The step as the source sequences it (spec/41_sequencer.md R130 to R138): five stages of raw component
calls, each of which could fail its contract, and an execute stage of four independent conditional actions. It is a
second account of one step, written apart from `step`; that the two agree on every state is stated as an obligation. -/

namespace Sys2Proof.Machine

/-- The LOAD action of the execute stage (spec/42_load_store.md R150). -/
def loadAction (addr : Bit) (s : State) : Except Fault State := do
  let d ← rawRamRead s.ram (bitInt addr)
  let a ← rawFfClock s.a (bitInt d[0]) (bitInt s.clk)
  return { s with a := a }

/-- The ADD action: the ALU selector is the constant [1,0], not the opcode (spec/43_add_xor.md R160). -/
def addAction (s : State) : Except Fault State := do
  let r ← rawAlu1 (bitInt (ffRead s.a)) (bitInt (ffRead s.b)) 0 1 0
  let a ← rawFfClock s.a (bitInt r.result) (bitInt s.clk)
  return { s with a := a }

/-- The XOR action: the ALU selector is the constant [1,1] (R161). -/
def xorAction (s : State) : Except Fault State := do
  let r ← rawAlu1 (bitInt (ffRead s.a)) (bitInt (ffRead s.b)) 0 1 1
  let a ← rawFfClock s.a (bitInt r.result) (bitInt s.clk)
  return { s with a := a }

/-- The STORE action (R151). -/
def storeAction (addr : Bit) (s : State) : Except Fault State := do
  let ram ← rawRamWrite s.ram (bitInt addr) [bitInt (ffRead s.a), 0, 0, 0] (bitInt s.clk)
  return { s with ram := ram }

/-- One conditional of the execute stage: the action if its signal is 1, else nothing (R134). -/
def whenSignal (signal : Bit) (action : State → Except Fault State) (s : State) : Except Fault State :=
  if signal then action s else .ok s

/-- Stage 4: four independent conditionals, checked in R134's order LOAD, ADD, XOR, STORE. -/
def executeStage (sig : Signals) (addr : Bit) (s : State) : Except Fault State := do
  let s ← whenSignal sig.load (loadAction addr) s
  let s ← whenSignal sig.add addAction s
  let s ← whenSignal sig.xor xorAction s
  whenSignal sig.store (storeAction addr) s

/-- Stage 5: `PC <-clk XOR(PC, 1)` (R135). -/
def pcStage (s : State) : Except Fault State := do
  let v ← rawXor (bitInt (ffRead s.pc)) 1
  let pc ← rawFfClock s.pc (bitInt v) (bitInt s.clk)
  return { s with pc := pc }

/-- The five stages in order: fetch, decode, control, execute, PC update (R130 to R135). A fault of any stage is the whole
cycle's and no state comes out of it (R138). -/
def sequencerCycle (s : State) : Except Fault State := do
  let w ← rawRomRead s.rom (bitInt (ffRead s.pc))
  let t ← rawAnd (bitInt w[2]) 1
  let addr ← rawOr (bitInt w[3]) (bitInt t)
  let sig ← rawControlUnit (bitInt w[0]) (bitInt w[1])
  let s ← executeStage sig addr s
  pcStage s

/-- A cycle's outcome as the outcome of a step (R138, R202). -/
def sequencerStep (s : State) : Host.Outcome State Fault Refusal :=
  match sequencerCycle s with
  | .ok t => .next t
  | .error f => .fault f

end Sys2Proof.Machine
end

