-- ==== Sys2Proof/Safety.lean ====
section
/-! DEFINITION. What counts as a safe run, and the named properties of states that statements are made about. -/

namespace Sys2Proof.Machine

/-- `t` is the state after `n` steps from `s` (spec/70_reset_and_hazards.md R261). -/
def RunsTo (n : Nat) (s t : State) : Prop := Host.Core.run Sys2Proof.core n s = .next t

/-- A run of `n` steps is safe when no step faults or is refused: a faulted state is never a successful end of a run
(spec/60_exceptions.md R202). -/
def SafeRun (n : Nat) (s : State) : Prop := ∃ t, RunsTo n s t

/-- Bits 1 to 3 of a data word are 0 (spec/20_memory.md R71). -/
def upperBitsClear (d : Word4) : Prop := d[1] = false ∧ d[2] = false ∧ d[3] = false

/-- What holds in every state of a run of the shipped hardware, whatever its ROM: B is 0 (spec/10_state.md R32), the clock
level is 1 (R36), bits 1 to 3 of every RAM word are 0 (R71), and RAM[2] and RAM[3] are [0,0,0,0] (R39, R61). -/
def Plain (s : State) : Prop :=
  s.b = false ∧ s.clk = true ∧ (∀ k : RamAddr, upperBitsClear s.ram[k.val]) ∧
  s.ram[2] = #v[false, false, false, false] ∧ s.ram[3] = #v[false, false, false, false]

/-- Two states that may differ only in what a program cannot observe: bits 1 to 3 of every RAM word, all of RAM[2] and
RAM[3], and ROM[2] to ROM[7] (spec/10_state.md R39); of ROM[0] and ROM[1] only the bits the decoder reads are compared
(spec/30_encoding.md R90). -/
def AgreeOnObservable (s t : State) : Prop :=
  s.a = t.a ∧ s.b = t.b ∧ s.pc = t.pc ∧ s.clk = t.clk ∧
  s.ram[0][0] = t.ram[0][0] ∧ s.ram[1][0] = t.ram[1][0] ∧
  decode s.rom[0] = decode t.rom[0] ∧ decode s.rom[1] = decode t.rom[1]

end Sys2Proof.Machine
end

