-- ==== Sys2Proof/Certificates/Slice0/Obligations.lean ====
section
/-! DEFINITION. The statements for the provers, from the numbered rules of spec/. Each says which rule it formalises;
where a clause rests on a choice or an inference the spec marks as its own, or on a log entry, the docstring says so. -/

open Sys2Proof Sys2Proof.Machine

/-! ### Construction and reset -/

/-- Reset leaves RAM[0] = [1,0,0,0] and RAM[1] = [0,0,0,0] (R60), RAM[2] and RAM[3] at [0,0,0,0], which the spec derives from
R24 (R40; DEDUCED, log 9), the ROM holding R59's words, each decoding to R59's instruction, A = B = PC = 0 and the clock level 1
(R40). That reset is construction is the spec's choice (D6, log 7), and R59's and R60's literals are unaudited defaults of
parameters (D7, log 8). -/
def Obligations.ResetLeavesTheShippedState : Prop :=
  State.reset.a = false ∧ State.reset.b = false ∧ State.reset.pc = false ∧ State.reset.clk = true ∧
  State.reset.ram = #v[#v[true, false, false, false], #v[false, false, false, false],
    #v[false, false, false, false], #v[false, false, false, false]] ∧
  State.reset.rom.toList.map wordToI = [0x00, 0x80, 0x50, 0xC0, 0x00, 0x00, 0x00, 0x00] ∧
  State.reset.rom.toList.map decode = [.load false false, .add, .store false true, .xor,
    .load false false, .load false false, .load false false, .load false false]

/-- Construction with any parameters, in R250's order: every flip-flop starts at 0, the ROM is the image, the clock level is
1, and `RAM_INIT` is applied. A word it does not write stays [0,0,0,0] (R40); a word it writes holds the last value written to
it, which follows from R250 step 4 with R51. That the ROM image and the initial RAM are parameters is the spec's choice (D7,
log 8). -/
def Obligations.ConstructionAppliesItsParameters : Prop :=
  ∀ (romImage : Rom) (ramInit : RamInit) (k : RamAddr),
    (State.construct romImage ramInit).a = false ∧ (State.construct romImage ramInit).b = false ∧
    (State.construct romImage ramInit).pc = false ∧ (State.construct romImage ramInit).clk = true ∧
    (State.construct romImage ramInit).rom = romImage ∧
    ((∀ d, (k, d) ∉ ramInit) →
      memRead (State.construct romImage ramInit) k = #v[false, false, false, false]) ∧
    (∀ before after d, ramInit = before ++ (k, d) :: after → (∀ d', (k, d') ∉ after) →
      memRead (State.construct romImage ramInit) k = d)

/-! ### Encoding -/

/-- Words written out bit by bit from R81 and R88 decode to the instructions they stand for (the spec's vectors G6). -/
def Obligations.WordsWrittenFromTheSpecDecode : Prop :=
  decode #v[false, false, true, true, true, true, true, true] = .load true true ∧
  decode #v[false, true, true, false, true, false, true, false] = .store true false ∧
  decode #v[true, false, true, true, false, false, false, false] = .add ∧
  decode #v[true, true, true, true, true, true, true, true] = .xor ∧
  decode #v[false, true, false, false, false, false, false, true] = .store false false

/-- The opcode map (R88) classifies every word as the decoder does: a row accepts a word exactly when it has the decoded
instruction's mnemonic, the opcode bits are the row's, and the field of a LOAD or STORE is `w[2] w[3]`. -/
def Obligations.OpcodeMapClassifiesEveryWord : Prop :=
  (opcodeTable.map OpcodeRow.mnemonic).Nodup ∧
  ∀ w : Word8,
    (∀ r ∈ opcodeTable, r.accepts w = true ↔ r.mnemonic = mnemonicOf (decode w)) ∧
    (∃ r ∈ opcodeTable, r.accepts w = true) ∧
    (w[0] = false → w[1] = false → decode w = .load w[2] w[3]) ∧
    (w[0] = false → w[1] = true → decode w = .store w[2] w[3]) ∧
    (w[0] = true → w[1] = false → decode w = .add) ∧
    (w[0] = true → w[1] = true → decode w = .xor)

/-- Decoding and encoding agree in both directions, over every instruction and every word, and so does the numbering the
opcode table uses. The canonical word is the spec's choice (R92, D14; log 18), the integer view its naming (R10, D1; log 2). -/
def Obligations.DecodeAndEncodeAgree : Prop :=
  (∀ i : Instr, i.wellFormed = true ∧ decode (encode i) = i) ∧
  (∀ w : Word8, encode (decode w) = canonicalWord w ∧ decode (canonicalWord w) = decode w) ∧
  (∀ w : Word8, wordOfI (wordToI w) = w ∧ decodeTableWord 8 (wordToI w) = some (decode w)) ∧
  (∀ n : Nat, n < 256 → wordToI (wordOfI n) = n)

/-- Ignored bits have no effect (R90, which the spec derives): words that differ only in bits the decoder does not use
decode alike, and LOAD and STORE act alike on fields with one derived address (R86). -/
def Obligations.IgnoredBitsHaveNoEffect : Prop :=
  (∀ v w : Word8, v[0] = w[0] → v[1] = w[1] → (v[0] = true ∨ v[2] = w[2] ∧ v[3] = w[3]) → decode v = decode w) ∧
  (∀ (f2 f3 g2 g3 : Bit) (s : State), derivedAddr f2 f3 = derivedAddr g2 g3 →
    exec (.load f2 f3) s = exec (.load g2 g3) s ∧ exec (.store f2 f3) s = exec (.store g2 g3) s) ∧
  (∀ f2 f3 : Bit, derivedAddr f2 f3 = if f2 = false ∧ f3 = false then false else true)

/-- A sequence of bits decodes exactly when it holds a whole word; a shorter one is refused by name (log 23; R80 gives the
one length). -/
def Obligations.BitSequencesDecodeWordByWord : Prop :=
  (∀ (w : Word8) (rest : List Bit), decodeBits (w.toList ++ rest) = .ok (decode w, rest)) ∧
  (∀ bits : List Bit, bits.length < 8 → decodeBits bits = .error (.wordTooShort bits.length))

/-- The assembler (R92, the spec's choice D14; log 18): every disassembled word's text reads back and assembles to the
canonical word, every line's text reads back, and exactly the lines naming RAM[2] or RAM[3] are refused. -/
def Obligations.AssemblerRoundTrip : Prop :=
  (∀ w : Word8, parseAsm (asmText (disassemble w)) = some (disassemble w) ∧
    assemble (disassemble w) = some (canonicalWord w)) ∧
  (∀ l : AsmLine, parseAsm (asmText l) = some l ∧ ((assemble l).isSome = l.wellFormed))

/-! ### Gates, adder, ALU, control decoder -/

/-- The gates on {0, 1} (R100 to R103). -/
def Obligations.GatesFollowTheirTables : Prop :=
  ∀ a b : Bit, (gateNot a).toNat = 1 - a.toNat ∧ gateAnd a b = (a && b) ∧ gateOr a b = (a || b) ∧
    gateXor a b = (a ^^ b)

/-- The full adder: its outputs are R106's formulas and, as arithmetic, `a + b + cin = sum + 2·cout`, a sentence of R107 that
the spec derives from R106. -/
def Obligations.FullAdderAddsThreeBits : Prop :=
  ∀ a b cin : Bit, (fullAdder a b cin).sum = gateXor (gateXor a b) cin ∧
    (fullAdder a b cin).cout = gateOr (gateAnd a b) (gateAnd (gateXor a b) cin) ∧
    a.toNat + b.toNat + cin.toNat = (fullAdder a b cin).sum.toNat + 2 * (fullAdder a b cin).cout.toNat

/-- The ALU's result by the selection table (R110); `cout` is the full adder's carry-out whatever the operation (R111). -/
def Obligations.AluSelectsAndAlwaysCarries : Prop :=
  ∀ a b cin : Bit,
    (alu1 a b cin false false).result = (a && b) ∧ (alu1 a b cin false true).result = (a || b) ∧
    (alu1 a b cin true false).result = (fullAdder a b cin).sum ∧
    (alu1 a b cin true false).result = (a ^^ b ^^ cin) ∧ (alu1 a b cin true true).result = (a ^^ b) ∧
    ∀ op0 op1 : Bit, (alu1 a b cin op0 op1).cout = (fullAdder a b cin).cout ∧
      (alu1 a b cin op0 op1).cout = ((a && b) || ((a ^^ b) && cin))

/-- The control decoder asserts exactly one signal for any opcode (R85), and it is the decoded instruction's (R84). -/
def Obligations.ControlSignalsAreOneHot : Prop :=
  (∀ op0 op1 : Bit, [(controlUnit op0 op1).load, (controlUnit op0 op1).store,
    (controlUnit op0 op1).add, (controlUnit op0 op1).xor].count true = 1) ∧
  (∀ w : Word8, controlUnit w[0] w[1] =
    { load := decide (mnemonicOf (decode w) = "LOAD"), store := decide (mnemonicOf (decode w) = "STORE"),
      add := decide (mnemonicOf (decode w) = "ADD"), xor := decide (mnemonicOf (decode w) = "XOR") })

/-! ### Storage components and their raw interface -/

/-- A flip-flop and a 4-bit register take the new value at clock level 1 and keep the old at level 0; reads return what is
held (R22, R23, R27, R28). -/
def Obligations.StorageObeysTheClockLevel : Prop :=
  (∀ q d : Bit, ffClock q d true = d ∧ ffClock q d false = q ∧ ffRead q = q) ∧
  (∀ r bits : Word4, registerLoad r bits true = bits ∧ registerLoad r bits false = r ∧ registerRead r = r)

/-- A RAM write then a read of any address: the addressed word is the data at clock level 1 (R51, R52), every other word is
unchanged (R55), at level 0 every word is, and writing the same word again changes nothing (R64, which the spec derives). -/
def Obligations.RamWriteChangesOnlyTheAddressedWord : Prop :=
  ∀ (ram : Ram) (k j : RamAddr) (d : Word4),
    ramRead (ramWrite ram k d true) k = d ∧
    (j ≠ k → ramRead (ramWrite ram k d true) j = ramRead ram j) ∧
    ramWrite ram k d false = ram ∧
    ramWrite (ramWrite ram k d true) k d true = ramWrite ram k d true

/-- An address outside the RAM or the ROM faults (R53, R57), whatever else is wrong with the call: that the address is
checked first is the spec's choice (R205, D18; log 13). A read at an address inside does what the typed component does (R52,
R56; writes inside are RawStoresCheckLengthThenBits). No stage of a CPU cycle raises either fault, which the spec derives
(R61, R203). -/
def Obligations.AddressesOutOfRangeFault : Prop :=
  (∀ (ram : Ram) (rom : Rom) (addr : Int),
    (addr < 0 ∨ 4 ≤ addr →
      rawRamRead ram addr = .error (.fRamAddr .ram) ∧
      ∀ (data : List Int) (clk : Int), rawRamWrite ram addr data clk = .error (.fRamAddr .ram)) ∧
    (addr < 0 ∨ 8 ≤ addr → rawRomRead rom addr = .error (.fRomAddr .rom)) ∧
    (∀ k : RamAddr, addr = k.val → rawRamRead ram addr = .ok (ramRead ram k)) ∧
    (∀ k : RomAddr, addr = k.val → rawRomRead rom addr = .ok (romRead rom k))) ∧
  (∀ (s : State) (c : Component), sequencerCycle s ≠ .error (.fRamAddr c) ∧ sequencerCycle s ≠ .error (.fRomAddr c))

/-- A raw register load or RAM write in range: another length than 4 is F_LEN, then a bit outside {0, 1} is F_BIT, and a
call that keeps its contract does what the typed component does (R29, R201). The order of the checks is the spec's choice (R205,
D18; log 13). That the register reports the length of a RAM write too, and the flip-flop a non-bit, is the model's reading of
R201's table (DEDUCED, log 25). -/
def Obligations.RawStoresCheckLengthThenBits : Prop :=
  ∀ (ram : Ram) (k : RamAddr) (data : List Int) (clk : Int),
    (data.length ≠ 4 →
      rawRegisterLoad ram[k.val] data clk = .error (.fLen .register) ∧
      rawRamWrite ram k.val data clk = .error (.fLen .register)) ∧
    (data.length = 4 → (data.all rawBitWellFormed && rawBitWellFormed clk) = false →
      rawRegisterLoad ram[k.val] data clk = .error (.fBit .flipFlop) ∧
      rawRamWrite ram k.val data clk = .error (.fBit .flipFlop)) ∧
    (∀ (d : Word4) (level : Bit), data = d.toList.map bitInt → clk = bitInt level →
      rawRegisterLoad ram[k.val] data clk = .ok (registerLoad ram[k.val] d level) ∧
      rawRamWrite ram k.val data clk = .ok (ramWrite ram k d level))

/-- A raw gate with an input outside {0, 1} raises F_BIT, and on bits it is the gate (R105, whose raw refusal is the spec's
choice D16, log 1; R201). That each gate records itself as the component is the model's reading of R201's table (DEDUCED,
log 25). -/
def Obligations.RawGatesRefuseNonBits : Prop :=
  ∀ x y : Int,
    (rawBitWellFormed x = false → rawNot x = .error (.fBit .notGate)) ∧
    ((rawBitWellFormed x && rawBitWellFormed y) = false →
      rawAnd x y = .error (.fBit .andGate) ∧ rawOr x y = .error (.fBit .orGate) ∧
      rawXor x y = .error (.fBit .xorGate)) ∧
    (∀ a b : Bit, x = bitInt a → y = bitInt b →
      rawNot x = .ok (gateNot a) ∧ rawAnd x y = .ok (gateAnd a b) ∧ rawOr x y = .ok (gateOr a b) ∧
      rawXor x y = .ok (gateXor a b))

/-! ### The four instructions: result and completion -/

/-- LOAD (R150). Every word with `I(w) AND 0xC0 = 0x00` is LOAD of its field and raises the control signal LOAD. LOAD
completes in every state: at clock level 1, A takes bit 0 of RAM[0] for field 00 and of RAM[1] for fields 01, 10 and 11;
at level 0 A is unchanged; nothing else changes. -/
def Obligations.LoadTakesBitZeroOfTheAddressedWord : Prop :=
  (∀ w : Word8, wordToI w &&& 0xC0 = 0x00 →
    decode w = .load w[2] w[3] ∧ (controlUnit w[0] w[1]).load = true) ∧
  (∀ (f2 f3 : Bit) (s : State), exec (.load f2 f3) s = .next { s with
    a := if s.clk = true then (if f2 = false ∧ f3 = false then s.ram[0][0] else s.ram[1][0]) else s.a })

/-- STORE (R151). Every word with `I(w) AND 0xC0 = 0x40` is STORE of its field and raises the control signal STORE. STORE
completes in every state: at clock level 1 the word [A,0,0,0] replaces RAM[0] for field 00 and RAM[1] for fields 01, 10 and
11; at level 0 the RAM is unchanged; nothing else changes. -/
def Obligations.StoreWritesTheWidenedAccumulator : Prop :=
  (∀ w : Word8, wordToI w &&& 0xC0 = 0x40 →
    decode w = .store w[2] w[3] ∧ (controlUnit w[0] w[1]).store = true) ∧
  (∀ (f2 f3 : Bit) (s : State), exec (.store f2 f3) s = .next { s with
    ram := if s.clk = true then
        (if f2 = false ∧ f3 = false then #v[#v[s.a, false, false, false], s.ram[1], s.ram[2], s.ram[3]]
         else #v[s.ram[0], #v[s.a, false, false, false], s.ram[2], s.ram[3]])
      else s.ram })

/-- ADD (R160). Every word with `I(w) AND 0xC0 = 0x80` is ADD and raises the control signal ADD. ADD completes in every
state: at clock level 1, A takes (A + B) modulo 2, the ALU's result for operation [1,0]; the carry AND(A, B) is not kept; at
level 0 A is unchanged; nothing else changes. -/
def Obligations.AddWritesTheSumAndDropsTheCarry : Prop :=
  (∀ w : Word8, wordToI w &&& 0xC0 = 0x80 → decode w = .add ∧ (controlUnit w[0] w[1]).add = true) ∧
  (∀ a b : Bit, (alu1 a b false true false).cout = (a && b)) ∧
  (∀ s : State, exec .add s = .next { s with
    a := if s.clk = true then (alu1 s.a s.b false true false).result else s.a }) ∧
  (∀ s : State, exec .add s = .next { s with
    a := if s.clk = true then decide ((s.a.toNat + s.b.toNat) % 2 = 1) else s.a })

/-- XOR (R161). Every word with `I(w) AND 0xC0 = 0xC0` is XOR and raises the control signal XOR. XOR completes in every
state: at clock level 1, A takes A ⊕ B, the ALU's result for operation [1,1]; the carry is not kept; at level 0 A is
unchanged; nothing else changes. -/
def Obligations.XorWritesTheExclusiveOr : Prop :=
  (∀ w : Word8, wordToI w &&& 0xC0 = 0xC0 → decode w = .xor ∧ (controlUnit w[0] w[1]).xor = true) ∧
  (∀ a b : Bit, (alu1 a b false true true).cout = (a && b)) ∧
  (∀ s : State, exec .xor s = .next { s with
    a := if s.clk = true then (alu1 s.a s.b false true true).result else s.a }) ∧
  (∀ s : State, exec .xor s = .next { s with a := if s.clk = true then (s.a ^^ s.b) else s.a })

/-- ADD and XOR write the same value in every state, and which of the two stands at a ROM address cannot be observed (R162,
which the spec derives): exchanging ADD and XOR words in the ROM leaves every trace as it was, where a trace is the
observations after each step (R262; D19, log 15). -/
def Obligations.AddAndXorCannotBeToldApart : Prop :=
  (∀ s : State, exec .add s = exec .xor s) ∧
  ∀ (n : Nat) (s : State) (rom : Rom),
    (∀ k : RomAddr, decode rom[k.val] = decode s.rom[k.val] ∨
      (decode rom[k.val] = .add ∧ decode s.rom[k.val] = .xor) ∨
      (decode rom[k.val] = .xor ∧ decode s.rom[k.val] = .add)) →
    traceAfter n { s with rom := rom } = traceAfter n s

/-! ### Frames -/

/-- What LOAD, ADD and XOR leave unchanged in the execute stage: B, PC, the clock level, the ROM, every word of the RAM. The
destination is A (R31). -/
def Obligations.AccumulatorInstructionsFrame : Prop :=
  ∀ (i : Instr) (s t : State), (∃ f2 f3, i = .load f2 f3) ∨ i = .add ∨ i = .xor → exec i s = .next t →
    t.b = s.b ∧ t.pc = s.pc ∧ t.clk = s.clk ∧ t.rom = s.rom ∧ ∀ k : RamAddr, memRead t k = memRead s k

/-- What STORE leaves unchanged in the execute stage: A, B, PC, the clock level, the ROM, and every RAM word but the one at
the address the meaning computes (R151, R55). -/
def Obligations.StoreFrame : Prop :=
  ∀ (f2 f3 : Bit) (s t : State), exec (.store f2 f3) s = .next t →
    t.a = s.a ∧ t.b = s.b ∧ t.pc = s.pc ∧ t.clk = s.clk ∧ t.rom = s.rom ∧
    ∀ k : RamAddr, k ≠ operandAddr f2 f3 → memRead t k = memRead s k

/-! ### The step -/

/-- A step runs the decoded instruction: it fetches the ROM word at `zext_3(PC)` (R131), runs the execute stage of what the
word decodes to, which leaves PC as it was, and, when that gives a next state, ends with `PC <-clk XOR(PC, 1)`, whatever the
instruction (R135); a stop of the execute stage is the step's. -/
def Obligations.StepRunsTheDecodedInstruction : Prop :=
  ∀ (s : State) (i : Instr), fetch s = (if s.pc = true then s.rom[1] else s.rom[0]) ∧
    (decode (fetch s) = i → i.wellFormed = true →
      (∀ t, exec i s = .next t → t.pc = s.pc ∧ t.clk = s.clk ∧
        step s = .next { t with pc := if t.clk = true then (t.pc ^^ true) else t.pc }) ∧
      (∀ f, exec i s = .fault f → step s = .fault f) ∧
      (∀ r, exec i s = .refused r → step s = .refused r))

/-- The step is the function R139 writes out, for every state. The decoded signals are R84's truth table. -/
def Obligations.StepIsTheFunctionTheSpecWritesOut : Prop :=
  ∀ s : State,
    let w := s.rom[if s.pc = true then 1 else 0]'(by split <;> decide)
    let addr := (w[3] || (w[2] && true))
    let sLoad := (!w[0] && !w[1])
    let sStore := (!w[0] && w[1])
    let sAdd := (w[0] && !w[1])
    let sXor := (w[0] && w[1])
    step s = .next {
      a := if sLoad = true ∧ s.clk = true then (if addr = true then s.ram[1][0] else s.ram[0][0])
        else if sAdd = true ∧ s.clk = true then (s.a ^^ s.b)
        else if sXor = true ∧ s.clk = true then (s.a ^^ s.b)
        else s.a
      b := s.b
      pc := if s.clk = true then (s.pc ^^ true) else s.pc
      ram := if sStore = true ∧ s.clk = true then
          (if addr = true then s.ram.set 1 #v[s.a, false, false, false]
           else s.ram.set 0 #v[s.a, false, false, false])
        else s.ram
      rom := s.rom
      clk := s.clk }

/-- The source's own sequencing of a step, five stages of raw component calls with four independent conditionals (R130 to
R135), agrees with `step` on every state; in particular no component call of a cycle breaks its contract (R203). -/
def Obligations.GateLevelSequencerAgreesWithStep : Prop :=
  ∀ s : State, sequencerStep s = step s

/-- `step` is total and never blocks (R141), and it never faults from a well-typed state, which the spec derives (R203): so
every state has a run of every length (R261), and a run of n steps followed by a run of m is a run of n + m. -/
def Obligations.EveryRunIsSafe : Prop :=
  ∀ (n m : Nat) (s : State), SafeRun n s ∧
    ∀ t u, RunsTo n s t → RunsTo m t u → RunsTo (n + m) s u

/-- At clock level 0 a step is a stutter step, and so is any number of them (R136, which the spec derives). -/
def Obligations.ClockLowRunsChangeNothing : Prop :=
  ∀ (n : Nat) (s : State), s.clk = false → step s = .next s ∧ RunsTo n s s

/-- Control flow (R143, which the spec derives): at clock level 1 the PC alternates, so after n steps it is the start PC
toggled n times and the next fetch is of ROM[0] or ROM[1] accordingly. -/
def Obligations.FetchAddressAlternates : Prop :=
  ∀ (n : Nat) (s t : State), s.clk = true → RunsTo n s t →
    t.pc = (s.pc ^^ decide (n % 2 = 1)) ∧
    fetch t = (if (s.pc ^^ decide (n % 2 = 1)) = true then s.rom[1] else s.rom[0])

/-- The two trace conventions (R262; D19, log 15): a trace of n steps has n observations, and observing before each step
shows the start and not the end where observing after each step shows the end and not the start. -/
def Obligations.TraceConventionsDifferByTheEnds : Prop :=
  ∀ (n : Nat) (s t : State), RunsTo n s t →
    (traceAfter n s).length = n ∧ (traceBefore n s).length = n ∧
    observe s :: traceAfter n s = traceBefore n s ++ [observe t]

/-- What no run changes: B (R32), the clock level (R36), the ROM (R58), RAM[2] and RAM[3] (R61, which the spec derives). -/
def Obligations.RunsNeverWriteBClockRomOrUpperRam : Prop :=
  ∀ (n : Nat) (s t : State), RunsTo n s t →
    t.b = s.b ∧ t.clk = s.clk ∧ t.rom = s.rom ∧ t.ram[2] = s.ram[2] ∧ t.ram[3] = s.ram[3]

/-! ### Invariants and isolation -/

/-- Every step keeps the invariant of the shipped machine (`Plain`): B is 0, the clock level is 1, bits 1 to 3 of every RAM
word are 0, RAM[2] and RAM[3] are [0,0,0,0] (R32, R36, R71, R61). -/
def Obligations.StepKeepsThePlainInvariant : Prop :=
  ∀ s t : State, Plain s → step s = .next t → Plain t

/-- The reset state meets the invariant, and so does any construction whose `RAM_INIT` writes only bit 0 of RAM[0] and
RAM[1] (R40, R71). -/
def Obligations.ConstructionMeetsThePlainInvariant : Prop :=
  Plain State.reset ∧
  ∀ (romImage : Rom) (ramInit : RamInit),
    (∀ k d, (k, d) ∈ ramInit → upperBitsClear d ∧ (2 ≤ k.val → d[0] = false)) → Plain (State.construct romImage ramInit)

/-- A program cannot observe bits 1 to 3 of a RAM word, RAM[2] and RAM[3], ROM[2] to ROM[7], or the ignored bits of ROM[0] and
ROM[1] (R39, R90, which the spec derives): states that differ only there give the same traces, after each step and before
each step, of every length. -/
def Obligations.HiddenStateIsNeverObserved : Prop :=
  ∀ (n : Nat) (s t : State), AgreeOnObservable s t →
    traceAfter n s = traceAfter n t ∧ traceBefore n s = traceBefore n t ∧ observe s = observe t

/-- STORE then LOAD (R256, which the spec derives): at clock level 1, when the word at PC is a STORE and the word at the
other PC a LOAD with the same derived address, two steps leave in A the value A had, and [A,0,0,0] at the address. -/
def Obligations.StoreThenLoadReadsTheAccumulator : Prop :=
  ∀ (s : State) (f2 f3 g2 g3 : Bit), s.clk = true → derivedAddr f2 f3 = derivedAddr g2 g3 →
    decode (fetch s) = .store f2 f3 → decode (romRead s.rom (zext3 (!s.pc))) = .load g2 g3 →
    ∃ t, RunsTo 2 s t ∧ t.a = s.a ∧ t.pc = s.pc ∧ memRead t (operandAddr f2 f3) = #v[s.a, false, false, false]

/-- The model's own loading of one word (log 19): the word placed is the one fetched and decoded next, and only the ROM word
at PC differs. -/
def Obligations.PlacedWordIsTheNextInstruction : Prop :=
  ∀ (s : State) (w : Word8),
    fetch (s.withFetchWord 8 (wordToI w)) = w ∧
    decodeTableWord 8 (wordToI w) = some (decode (fetch (s.withFetchWord 8 (wordToI w)))) ∧
    step (s.withFetchWord 8 (wordToI w)) = completeCycle (exec (decode w) (s.withFetchWord 8 (wordToI w))) ∧
    s.withFetchWord 8 (wordToI w) = { s with rom := (s.withFetchWord 8 (wordToI w)).rom } ∧
    ∀ k : RomAddr, k ≠ zext3 s.pc → romRead (s.withFetchWord 8 (wordToI w)).rom k = romRead s.rom k

/-! ### The host -/

/-- `debug()` returns A, B, PC, RAM[0] bit 0 and RAM[1] bit 0 and changes nothing (R140). That it still reads in a stopped
block is the model's reading (DEDUCED, log 21), and that the output ports show the same five bits is R144's naming (D5,
log 6). -/
def Obligations.ObserverReadsFiveBitsAndChangesNothing : Prop :=
  ∀ k : Block, hostAct .debug k = (k, some (observe k.cpu)) ∧
    observe k.cpu = { a := k.cpu.a, b := k.cpu.b, pc := k.cpu.pc, ram0 := k.cpu.ram[0][0], ram1 := k.cpu.ram[1][0] } ∧
    observe k.cpu = { a := (blockPorts k).obsA, b := (blockPorts k).obsB, pc := (blockPorts k).obsPC,
                      ram0 := (blockPorts k).obsRam0, ram1 := (blockPorts k).obsRam1 }

/-- The shipped host's actions on a running block (R263; `set_clk` and `reset` are the spec's choices D3, D6): construction
gives the constructed state, `step()` the next state, `set_clk(v)` changes the clock level alone. -/
def Obligations.HostActionsOnARunningBlock : Prop :=
  ∀ (s : State) (romImage : Rom) (ramInit : RamInit) (v : Bit),
    hostAct (.construct romImage ramInit) ⟨s, .running⟩ = (⟨State.construct romImage ramInit, .running⟩, none) ∧
    hostAct .reset ⟨s, .running⟩ = (⟨State.reset, .running⟩, none) ∧
    (∃ t, step s = .next t ∧ hostAct .step ⟨s, .running⟩ = (⟨t, .running⟩, none)) ∧
    hostAct (.setClk v) ⟨s, .running⟩ = (⟨{ s with clk := v }, .running⟩, none)

/-- A faulted block takes no further steps and its fault is never cleared, whatever the host does short of constructing
another (R202, the spec's choice D9; R253; log 21). -/
def Obligations.FaultedBlockStaysFaulted : Prop :=
  ∀ (actions : List HostAction) (k : Block) (f : Fault), k.condition = .faulted f →
    (∀ romImage ramInit, HostAction.construct romImage ramInit ∉ actions) → hostRun actions k = k

/-- No list of the shipped host's actions ever faults or stops a running block (R203, which the spec derives). -/
def Obligations.ShippedHostNeverFaultsTheBlock : Prop :=
  ∀ (actions : List HostAction) (k : Block), k.condition = .running → (hostRun actions k).condition = .running

/-- A direct component call that breaks its contract stops the block with that fault and leaves the CPU's state as it was
(R138, R202; D9, log 11), and the `fault` output port then shows the fault's code (R144's naming, D5, log 6); one that keeps it
never writes the ROM (R58) or the clock level. Direct calls are component tests' alone (D21, log 17), over the components log 28
names. -/
def Obligations.FaultingCallChangesNoState : Prop :=
  ∀ (call : ComponentCall) (s : State),
    (∀ f, callComponent call s = .error f →
      testAct (.call call) ⟨s, .running⟩ = (⟨s, .faulted f⟩, .nothing) ∧
      (blockPorts (testAct (.call call) ⟨s, .running⟩).1).fault = some (faultCode f)) ∧
    (∀ t l, callComponent call s = .ok (t, l) →
      testAct (.call call) ⟨s, .running⟩ = (⟨t, .running⟩, .bits l) ∧ t.rom = s.rom ∧ t.clk = s.clk)

/-! ### Isolation, one step -/

/-- A step keeps the agreement of two states on all that a program can observe: states that differ only in bits 1 to 3 of a RAM
word, RAM[2] and RAM[3], ROM[2] to ROM[7], or the ignored bits of ROM[0] and ROM[1] go to next states that differ only there
(R39, R90, which the spec derives). -/
def Obligations.StepKeepsAgreementOnTheObservable : Prop :=
  ∀ s t s' t' : State, AgreeOnObservable s t → step s = .next s' → step t = .next t' → AgreeOnObservable s' t'
end

