-- ==== Sys2Proof/Laws/Components.lean ====
section
/-! SUPPORT. One specification lemma per component: gates, adder, flip-flop, register, RAM, ROM, operand conversions. -/

namespace Sys2Proof.Machine

/-! ### Words as their elements -/

/-- A vector of four elements is the list of them (R9). -/
theorem vector4_eta {α : Type} (d : Vector α 4) : d = #v[d[0], d[1], d[2], d[3]] := by
  ext i hi
  have : i = 0 ∨ i = 1 ∨ i = 2 ∨ i = 3 := by omega
  rcases this with rfl | rfl | rfl | rfl <;> rfl

/-- An instruction word is the list of its bits (R9). -/
theorem word8_eta (w : Word8) : w = #v[w[0], w[1], w[2], w[3], w[4], w[5], w[6], w[7]] := by
  ext i hi
  have : i = 0 ∨ i = 1 ∨ i = 2 ∨ i = 3 ∨ i = 4 ∨ i = 5 ∨ i = 6 ∨ i = 7 := by omega
  rcases this with rfl | rfl | rfl | rfl | rfl | rfl | rfl | rfl <;> rfl

/-! ### Gates as Boolean operations -/

@[simp] theorem gateNot_eq (a : Bit) : gateNot a = !a := by cases a <;> rfl
@[simp] theorem gateAnd_eq (a b : Bit) : gateAnd a b = (a && b) := by cases a <;> cases b <;> rfl
@[simp] theorem gateOr_eq (a b : Bit) : gateOr a b = (a || b) := by cases a <;> cases b <;> rfl
@[simp] theorem gateXor_eq (a b : Bit) : gateXor a b = (a ^^ b) := by cases a <;> cases b <;> rfl

/-! ### Storage -/

@[simp] theorem ffRead_eq (q : Bit) : ffRead q = q := rfl
@[simp] theorem ffInitial_eq : ffInitial = false := rfl
@[simp] theorem ffClock_one (q d : Bit) : ffClock q d true = d := rfl
@[simp] theorem ffClock_zero (q d : Bit) : ffClock q d false = q := rfl

/-- A register keeps its whole word at clock level 0 and takes the whole new word at level 1 (R27). -/
theorem registerLoad_eq (r bits : Word4) (clk : Bit) :
    registerLoad r bits clk = if clk then bits else r := by
  cases clk
  · exact (vector4_eta r).symm
  · exact (vector4_eta bits).symm

/-- Reading a register gives its word (R28). -/
theorem registerRead_eq (r : Word4) : registerRead r = r := (vector4_eta r).symm

/-- Reading the RAM gives the addressed word (R52). -/
theorem ramRead_eq (ram : Ram) (k : RamAddr) : ramRead ram k = ram[k.val] := registerRead_eq _

/-- A RAM write at clock level 1 replaces the addressed word and no other (R51, R55). -/
theorem ramWrite_one (ram : Ram) (k : RamAddr) (d : Word4) :
    ramWrite ram k d true = ram.set k.val d := by
  rw [ramWrite, registerLoad_eq, if_pos rfl]

/-- A RAM write at clock level 0 changes nothing (R51). -/
theorem ramWrite_zero (ram : Ram) (k : RamAddr) (d : Word4) : ramWrite ram k d false = ram := by
  rw [ramWrite, registerLoad_eq, if_neg (by decide), Vector.set_getElem_self]

/-- What any word of the RAM holds after a write: everything a write can do (R51, R55). -/
theorem ramWrite_getElem (ram : Ram) (k : RamAddr) (d : Word4) (clk : Bit) (j : Nat) (hj : j < 4) :
    (ramWrite ram k d clk)[j] = if clk = true ∧ k.val = j then d else ram[j] := by
  cases clk
  · rw [ramWrite_zero, if_neg (by simp)]
  · rw [ramWrite_one, Vector.getElem_set]
    simp only [true_and]

/-- `RAM_INIT` is applied one list after another (R250). -/
theorem applyRamInit_append (first second : RamInit) (ram : Ram) :
    applyRamInit ram (first ++ second) = applyRamInit (applyRamInit ram first) second := by
  induction first generalizing ram with
  | nil => rfl
  | cons x xs ih => exact ih _

/-- What holds of every word at the start and of every word written holds of every word afterwards. -/
theorem applyRamInit_induction (P : RamAddr → Word4 → Prop) (ramInit : RamInit) (ram : Ram)
    (start : ∀ k : RamAddr, P k ram[k.val]) (written : ∀ k d, (k, d) ∈ ramInit → P k d) (k : RamAddr) :
    P k (applyRamInit ram ramInit)[k.val] := by
  induction ramInit generalizing ram with
  | nil => exact start k
  | cons x xs ih =>
    refine ih _ (fun j => ?_) fun j d hd => written j d (List.mem_cons_of_mem _ hd)
    rw [ramWrite_getElem]
    split
    · rename_i h
      have hj : x.1 = j := Fin.ext h.2
      exact hj ▸ written _ _ (List.mem_cons_self ..)
    · exact start j

/-- Reading the ROM gives the addressed word (R56). -/
theorem romRead_eq (rom : Rom) (k : RomAddr) : romRead rom k = rom[k.val] := rfl

/-! ### Operand conversions -/

/-- The derived address is `w[2] OR w[3]` (R86). -/
theorem derivedAddr_eq (f2 f3 : Bit) : derivedAddr f2 f3 = (f2 || f3) := by cases f2 <;> cases f3 <;> rfl

/-- LOAD and STORE reach RAM[0] and RAM[1] only (R61, R86). -/
theorem operandAddr_eq (f2 f3 : Bit) : operandAddr f2 f3 = if f2 || f3 then 1 else 0 := by
  rw [operandAddr, derivedAddr_eq, zext2]

/-- The operand address is neither 2 nor 3 (R61). -/
theorem operandAddr_lt_two (f2 f3 : Bit) : (operandAddr f2 f3).val < 2 := by cases f2 <;> cases f3 <;> decide

/-- The numeric view of a data word is below 16 (R10). -/
theorem wordValue_lt (d : Word4) : wordValue d < 16 := by
  have (b : Bool) : b.toNat ≤ 1 := b.toNat_le
  have h0 := this d[0]
  have h1 := this d[1]
  have h2 := this d[2]
  have h3 := this d[3]
  unfold wordValue
  omega

end Sys2Proof.Machine
end

