-- ==== Sys2Proof/Laws/HostPort.lean ====
section
/-! SUPPORT. The CPU's flip-flops by name: read after write, and what a write leaves alone. -/

namespace Sys2Proof.Machine

/-- Setting one bit of one word of a RAM leaves every other bit as it was (R26, R27). -/
theorem ram_set_bit_ne (ram : Ram) (k j i l : Nat) (hk : k < 4) (hj : j < 4) (hi : i < 4) (hl : l < 4) (v : Bit)
    (h : k = j → i ≠ l) : (ram.set k (ram[k].set i v))[j][l] = ram[j][l] := by
  by_cases hkj : k = j
  · subst hkj
    rw [Vector.getElem_set_self, Vector.getElem_set_ne hi hl (h rfl)]
  · rw [Vector.getElem_set_ne hk hj hkj]

/-- A flip-flop holds what was put in it (R22, R23). -/
theorem flipFlopOf_withFlipFlop_self (s : State) (v : Bit) (cell : FlipFlopName) :
    flipFlopOf (withFlipFlop s v cell) cell = v := by
  cases cell with
  | a => rfl
  | b => rfl
  | pc => rfl
  | ramBit k i => simp [flipFlopOf, withFlipFlop]

/-- Every other flip-flop keeps its value: no two names share storage (R30, R33). -/
theorem flipFlopOf_withFlipFlop_ne (s : State) (v : Bit) {cell other : FlipFlopName} (h : other ≠ cell) :
    flipFlopOf (withFlipFlop s v cell) other = flipFlopOf s other := by
  cases cell <;> cases other <;> first | rfl | exact absurd rfl h | skip
  rename_i k i j l
  exact ram_set_bit_ne s.ram k j i l k.isLt j.isLt i.isLt l.isLt v
    fun hk hi => h (by rw [Fin.ext hk, Fin.ext hi])

@[simp] theorem withFlipFlop_rom (s : State) (v : Bit) (cell : FlipFlopName) : (withFlipFlop s v cell).rom = s.rom := by
  cases cell <;> rfl
@[simp] theorem withFlipFlop_clk (s : State) (v : Bit) (cell : FlipFlopName) : (withFlipFlop s v cell).clk = s.clk := by
  cases cell <;> rfl

end Sys2Proof.Machine
end

