-- ==== Sys2Proof/Laws/Memory.lean ====
section
/-! SUPPORT. The RAM's list of cells is canonical after every operation, reads back the RAM's words, and determines them. -/

namespace Sys2Proof.Machine

/-- One cell: what is listed is inside 4 bits and is not what an unlisted address reads as. -/
theorem mem_ramCell {addr : Nat} {d : Word4} {c : Host.Cell} (h : c ∈ ramCell addr d) :
    c.1 = addr ∧ c.2 = BitVec.ofNat 8 (wordValue d) ∧ c.2 ≠ unlistedCell := by
  unfold ramCell at h
  split at h
  · simp at h
  · rename_i hne
    rw [List.mem_singleton] at h
    subst h
    exact ⟨rfl, rfl, hne⟩

theorem toNat_ofNat_wordValue (d : Word4) : (BitVec.ofNat 8 (wordValue d)).toNat = wordValue d := by
  have := wordValue_lt d
  rw [BitVec.toNat_ofNat]
  omega

/-- The addresses of one word's cell are its address or none. -/
theorem map_fst_ramCell (addr : Nat) (d : Word4) :
    (ramCell addr d).map Prod.fst = [] ∨ (ramCell addr d).map Prod.fst = [addr] := by
  unfold ramCell
  split
  · exact .inl rfl
  · exact .inr rfl

/-- The list of a RAM is canonical, whatever the RAM holds; so every operation on the RAM keeps the form. -/
theorem ramCells_wf (ram : Ram) : memoryWf (ramCells ram) = true := by
  have hall : ∀ c ∈ ramCells ram, c.1 < 4 ∧ c.2 ≠ unlistedCell ∧ c.2.toNat < 16 := by
    intro c hc
    simp only [ramCells, List.mem_append] at hc
    rcases hc with ((hc | hc) | hc) | hc <;> obtain ⟨h1, h2, h3⟩ := mem_ramCell hc <;>
      refine ⟨by omega, h3, ?_⟩ <;> rw [h2, toNat_ofNat_wordValue] <;> exact wordValue_lt _
  have hrise : ((ramCells ram).map Prod.fst).Pairwise (· < ·) := by
    simp only [ramCells, List.map_append]
    rcases map_fst_ramCell 0 ram[0] with h0 | h0 <;> rcases map_fst_ramCell 1 ram[1] with h1 | h1 <;>
      rcases map_fst_ramCell 2 ram[2] with h2 | h2 <;> rcases map_fst_ramCell 3 ram[3] with h3 | h3 <;>
      rw [h0, h1, h2, h3] <;> decide
  simp only [memoryWf, Bool.and_eq_true, decide_eq_true_eq, List.all_eq_true, bne_iff_ne, ne_eq]
  exact ⟨hrise, fun c hc => ⟨⟨(hall c hc).1, (hall c hc).2.1⟩, (hall c hc).2.2⟩⟩

/-- Reading past a word's cell at another address reads the rest of the list. -/
theorem cellsRead_ramCell_append_ne (addr k : Nat) (d : Word4) (rest : List Host.Cell) (h : addr ≠ k) :
    cellsRead (ramCell addr d ++ rest) k = cellsRead rest k := by
  unfold ramCell
  split
  · rfl
  · simp [cellsRead, h]

/-- Reading a word's cell at its address gives its value, provided no later cell has that address. -/
theorem cellsRead_ramCell_append_self (k : Nat) (d : Word4) (rest : List Host.Cell)
    (h : cellsRead rest k = unlistedCell) :
    cellsRead (ramCell k d ++ rest) k = BitVec.ofNat 8 (wordValue d) := by
  unfold ramCell
  split
  · rename_i heq
    rw [heq]
    exact h
  · simp [cellsRead]

/-- Reading the list at an address of the RAM gives that word's value. -/
theorem cellsRead_ramCells (ram : Ram) (k : RamAddr) :
    cellsRead (ramCells ram) k.val = BitVec.ofNat 8 (wordValue ram[k.val]) := by
  have hnil (k : Nat) : cellsRead [] k = unlistedCell := rfl
  have hlast (d : Word4) : ramCell 3 d = ramCell 3 d ++ [] := (List.append_nil _).symm
  unfold ramCells
  rw [hlast]
  simp only [List.append_assoc]
  match k with
  | 0 => exact cellsRead_ramCell_append_self 0 _ _ (by
      rw [cellsRead_ramCell_append_ne _ _ _ _ (by decide), cellsRead_ramCell_append_ne _ _ _ _ (by decide),
        cellsRead_ramCell_append_ne _ _ _ _ (by decide), hnil])
  | 1 =>
    rw [cellsRead_ramCell_append_ne _ _ _ _ (by decide)]
    exact cellsRead_ramCell_append_self 1 _ _ (by
      rw [cellsRead_ramCell_append_ne _ _ _ _ (by decide), cellsRead_ramCell_append_ne _ _ _ _ (by decide), hnil])
  | 2 =>
    rw [cellsRead_ramCell_append_ne _ _ _ _ (by decide), cellsRead_ramCell_append_ne _ _ _ _ (by decide)]
    exact cellsRead_ramCell_append_self 2 _ _ (by rw [cellsRead_ramCell_append_ne _ _ _ _ (by decide), hnil])
  | 3 =>
    rw [cellsRead_ramCell_append_ne _ _ _ _ (by decide), cellsRead_ramCell_append_ne _ _ _ _ (by decide),
      cellsRead_ramCell_append_ne _ _ _ _ (by decide)]
    exact cellsRead_ramCell_append_self 3 _ _ (hnil _)

/-- A data word is determined by its numeric view (R10). -/
theorem wordValue_injective {d e : Word4} (h : wordValue d = wordValue e) : d = e := by
  have hb (b : Bool) : b.toNat ≤ 1 := b.toNat_le
  have ht {x y : Bool} (hxy : x.toNat = y.toNat) : x = y := by revert hxy; cases x <;> cases y <;> decide
  have hd0 := hb d[0]; have hd1 := hb d[1]; have hd2 := hb d[2]; have hd3 := hb d[3]
  have he0 := hb e[0]; have he1 := hb e[1]; have he2 := hb e[2]; have he3 := hb e[3]
  unfold wordValue at h
  ext i hi
  have hi' : i = 0 ∨ i = 1 ∨ i = 2 ∨ i = 3 := by omega
  rcases hi' with rfl | rfl | rfl | rfl <;> exact ht (by omega)

/-- Equal lists are equal RAMs: the canonical form loses nothing. -/
theorem ramCells_injective {r q : Ram} (h : ramCells r = ramCells q) : r = q := by
  ext1 i hi
  have hr := cellsRead_ramCells r ⟨i, hi⟩
  rw [h, cellsRead_ramCells q ⟨i, hi⟩] at hr
  apply wordValue_injective
  have := congrArg BitVec.toNat hr
  rw [toNat_ofNat_wordValue, toNat_ofNat_wordValue] at this
  exact this.symm

/-- The memory of the reset state has the canonical form. -/
theorem reset_memoryWf : memoryWf (ramCells State.reset.ram) = true := ramCells_wf _

end Sys2Proof.Machine
end

