-- ==== Sys2Proof/Laws/PerInstr.lean ====
section
/-! SUPPORT. Facts about instructions as encodings, one lemma per constructor. -/

namespace Sys2Proof.Laws.TableRow

/-- An instruction's canonical word is accepted by the opcode table's row of its mnemonic, by no other row
(spec/30_encoding.md R83, R88), and has its unused bits 0 (R92). -/
def Statement (i : Instr) : Prop :=
  (∃ r ∈ opcodeTable, r.mnemonic = mnemonicOf i) ∧
  (∀ r ∈ opcodeTable, r.accepts (encode i) = true ↔ r.mnemonic = mnemonicOf i) ∧
  (encode i)[4] = false ∧ (encode i)[5] = false ∧ (encode i)[6] = false ∧ (encode i)[7] = false

theorem load (f2 f3 : Bit) : Statement (.load f2 f3) := by
  unfold Statement
  cases f2 <;> cases f3 <;> decide

theorem store (f2 f3 : Bit) : Statement (.store f2 f3) := by
  unfold Statement
  cases f2 <;> cases f3 <;> decide

theorem add : Statement .add := by
  unfold Statement
  decide

theorem xor : Statement .xor := by
  unfold Statement
  decide

end Sys2Proof.Laws.TableRow
end

