-- ==== Sys2Proof/Laws/Raw.lean ====
section
/-! SUPPORT. A raw call on well-typed arguments does what the typed component does. -/

namespace Sys2Proof.Machine

/-- A raw call that succeeds hands its value on. -/
theorem ok_bind {α β : Type} (x : α) (f : α → Except Fault β) : (Except.ok x >>= f) = f x := rfl

/-- A raw call that fails is the whole computation's failure: nothing after it runs (R138, R202). -/
theorem error_bind {α β : Type} (e : Fault) (f : α → Except Fault β) : (Except.error e >>= f) = .error e := rfl

@[simp] theorem rawBit_bitInt (c : Component) (b : Bit) : rawBit c (bitInt b) = .ok b := by cases b <;> rfl
@[simp] theorem rawBit_zero (c : Component) : rawBit c 0 = .ok false := rfl
@[simp] theorem rawBit_one (c : Component) : rawBit c 1 = .ok true := rfl

/-- A raw bit outside {0, 1} is F_BIT of the component, and nothing else is (R105, R201). -/
theorem rawBit_eq (c : Component) (x : Int) :
    rawBit c x = if rawBitWellFormed x then .ok (x == 1) else .error (.fBit c) := by
  unfold rawBit rawBitWellFormed
  by_cases h0 : x = 0
  · subst h0; rfl
  · by_cases h1 : x = 1
    · subst h1; rfl
    · simp [h0, h1]

theorem rawNot_bitInt (a : Bit) : rawNot (bitInt a) = .ok (gateNot a) := by cases a <;> rfl
theorem rawAnd_bitInt (a b : Bit) : rawAnd (bitInt a) (bitInt b) = .ok (gateAnd a b) := by
  cases a <;> cases b <;> rfl
theorem rawOr_bitInt (a b : Bit) : rawOr (bitInt a) (bitInt b) = .ok (gateOr a b) := by
  cases a <;> cases b <;> rfl
theorem rawXor_bitInt (a b : Bit) : rawXor (bitInt a) (bitInt b) = .ok (gateXor a b) := by
  cases a <;> cases b <;> rfl

theorem rawFullAdder_bitInt (a b cin : Bit) :
    rawFullAdder (bitInt a) (bitInt b) (bitInt cin) = .ok (fullAdder a b cin) := by
  cases a <;> cases b <;> cases cin <;> rfl

theorem rawControlUnit_bitInt (op0 op1 : Bit) :
    rawControlUnit (bitInt op0) (bitInt op1) = .ok (controlUnit op0 op1) := by
  cases op0 <;> cases op1 <;> rfl

theorem rawAlu1_bitInt (a b cin op0 op1 : Bit) :
    rawAlu1 (bitInt a) (bitInt b) (bitInt cin) (bitInt op0) (bitInt op1) = .ok (alu1 a b cin op0 op1) := by
  cases a <;> cases b <;> cases cin <;> cases op0 <;> cases op1 <;> rfl

theorem rawFfClock_bitInt (q d clk : Bit) : rawFfClock q (bitInt d) (bitInt clk) = .ok (ffClock q d clk) := by
  cases d <;> cases clk <;> rfl

theorem rawRegisterLoad_bitInt (r bits : Word4) (clk : Bit) :
    rawRegisterLoad r [bitInt bits[0], bitInt bits[1], bitInt bits[2], bitInt bits[3]] (bitInt clk)
      = .ok (registerLoad r bits clk) := by
  simp only [rawRegisterLoad, rawFfClock_bitInt, registerLoad]
  rfl

/-- A raw `clock` call succeeds exactly on two bits (R22, R201). -/
theorem rawFfClock_eq (q : Bit) (d clk : Int) :
    rawFfClock q d clk = if rawBitWellFormed d && rawBitWellFormed clk then .ok (ffClock q (d == 1) (clk == 1))
      else .error (.fBit .flipFlop) := by
  simp only [rawFfClock, rawBit_eq]
  cases rawBitWellFormed d <;> cases rawBitWellFormed clk <;> rfl

/-- A raw RAM address succeeds exactly inside 0..3 (R53). -/
theorem rawRamAddr_of_range (k : RamAddr) : rawRamAddr k.val = .ok k := by revert k; decide
theorem rawRamAddr_of_out (addr : Int) (h : addr < 0 ∨ 4 ≤ addr) : rawRamAddr addr = .error (.fRamAddr .ram) := by
  rw [rawRamAddr, dif_neg (by omega)]

/-- A raw ROM address succeeds exactly inside 0..7 (R57). -/
theorem rawRomAddr_of_range (k : RomAddr) : rawRomAddr k.val = .ok k := by revert k; decide
theorem rawRomAddr_of_out (addr : Int) (h : addr < 0 ∨ 8 ≤ addr) : rawRomAddr addr = .error (.fRomAddr .rom) := by
  rw [rawRomAddr, dif_neg (by omega)]

theorem rawRamAddr_bitInt (v : Bit) : rawRamAddr (bitInt v) = .ok (zext2 v) := by cases v <;> rfl
theorem rawRomAddr_bitInt (v : Bit) : rawRomAddr (bitInt v) = .ok (zext3 v) := by cases v <;> rfl

end Sys2Proof.Machine
end

