-- ==== Sys2Proof/Laws/State.lean ====
section
/-! SUPPORT. One lemma per field of State per operation that updates it. -/

namespace Sys2Proof.Machine

@[simp] theorem clockA_a (s : State) (v : Bit) : (clockA s v).a = ffClock s.a v s.clk := rfl
@[simp] theorem clockA_b (s : State) (v : Bit) : (clockA s v).b = s.b := rfl
@[simp] theorem clockA_pc (s : State) (v : Bit) : (clockA s v).pc = s.pc := rfl
@[simp] theorem clockA_ram (s : State) (v : Bit) : (clockA s v).ram = s.ram := rfl
@[simp] theorem clockA_rom (s : State) (v : Bit) : (clockA s v).rom = s.rom := rfl
@[simp] theorem clockA_clk (s : State) (v : Bit) : (clockA s v).clk = s.clk := rfl

@[simp] theorem clockPc_a (s : State) (v : Bit) : (clockPc s v).a = s.a := rfl
@[simp] theorem clockPc_b (s : State) (v : Bit) : (clockPc s v).b = s.b := rfl
@[simp] theorem clockPc_pc (s : State) (v : Bit) : (clockPc s v).pc = ffClock s.pc v s.clk := rfl
@[simp] theorem clockPc_ram (s : State) (v : Bit) : (clockPc s v).ram = s.ram := rfl
@[simp] theorem clockPc_rom (s : State) (v : Bit) : (clockPc s v).rom = s.rom := rfl
@[simp] theorem clockPc_clk (s : State) (v : Bit) : (clockPc s v).clk = s.clk := rfl

@[simp] theorem memWrite_a (s : State) (k : RamAddr) (d : Word4) : (memWrite s k d).a = s.a := rfl
@[simp] theorem memWrite_b (s : State) (k : RamAddr) (d : Word4) : (memWrite s k d).b = s.b := rfl
@[simp] theorem memWrite_pc (s : State) (k : RamAddr) (d : Word4) : (memWrite s k d).pc = s.pc := rfl
@[simp] theorem memWrite_ram (s : State) (k : RamAddr) (d : Word4) : (memWrite s k d).ram = ramWrite s.ram k d s.clk := rfl
@[simp] theorem memWrite_rom (s : State) (k : RamAddr) (d : Word4) : (memWrite s k d).rom = s.rom := rfl
@[simp] theorem memWrite_clk (s : State) (k : RamAddr) (d : Word4) : (memWrite s k d).clk = s.clk := rfl

@[simp] theorem updatePc_a (s : State) : (updatePc s).a = s.a := rfl
@[simp] theorem updatePc_b (s : State) : (updatePc s).b = s.b := rfl
@[simp] theorem updatePc_pc (s : State) : (updatePc s).pc = ffClock s.pc (gateXor s.pc true) s.clk := rfl
@[simp] theorem updatePc_ram (s : State) : (updatePc s).ram = s.ram := rfl
@[simp] theorem updatePc_rom (s : State) : (updatePc s).rom = s.rom := rfl
@[simp] theorem updatePc_clk (s : State) : (updatePc s).clk = s.clk := rfl

@[simp] theorem setClk_a (s : State) (v : Bit) : (setClk s v).a = s.a := rfl
@[simp] theorem setClk_b (s : State) (v : Bit) : (setClk s v).b = s.b := rfl
@[simp] theorem setClk_pc (s : State) (v : Bit) : (setClk s v).pc = s.pc := rfl
@[simp] theorem setClk_ram (s : State) (v : Bit) : (setClk s v).ram = s.ram := rfl
@[simp] theorem setClk_rom (s : State) (v : Bit) : (setClk s v).rom = s.rom := rfl
@[simp] theorem setClk_clk (s : State) (v : Bit) : (setClk s v).clk = v := rfl

@[simp] theorem placeFetchWord_a (s : State) (nbits w : Nat) : (placeFetchWord s nbits w).a = s.a := rfl
@[simp] theorem placeFetchWord_b (s : State) (nbits w : Nat) : (placeFetchWord s nbits w).b = s.b := rfl
@[simp] theorem placeFetchWord_pc (s : State) (nbits w : Nat) : (placeFetchWord s nbits w).pc = s.pc := rfl
@[simp] theorem placeFetchWord_ram (s : State) (nbits w : Nat) : (placeFetchWord s nbits w).ram = s.ram := rfl
@[simp] theorem placeFetchWord_rom (s : State) (nbits w : Nat) : (placeFetchWord s nbits w).rom = s.rom.set (zext3 s.pc).val (wordOfI (w % 2 ^ nbits)) := rfl
@[simp] theorem placeFetchWord_clk (s : State) (nbits w : Nat) : (placeFetchWord s nbits w).clk = s.clk := rfl

@[simp] theorem construct_a (romImage : Rom) (ramInit : RamInit) :
    (State.construct romImage ramInit).a = false := rfl
@[simp] theorem construct_b (romImage : Rom) (ramInit : RamInit) :
    (State.construct romImage ramInit).b = false := rfl
@[simp] theorem construct_pc (romImage : Rom) (ramInit : RamInit) :
    (State.construct romImage ramInit).pc = false := rfl
@[simp] theorem construct_ram (romImage : Rom) (ramInit : RamInit) :
    (State.construct romImage ramInit).ram = applyRamInit ramInitial ramInit := rfl
@[simp] theorem construct_rom (romImage : Rom) (ramInit : RamInit) :
    (State.construct romImage ramInit).rom = romImage := rfl
@[simp] theorem construct_clk (romImage : Rom) (ramInit : RamInit) :
    (State.construct romImage ramInit).clk = true := rfl

end Sys2Proof.Machine
end

