-- ==== Sys2Proof/Laws/Step.lean ====
section
/-! SUPPORT. Once, everything the execute stage and a step can do. -/

namespace Sys2Proof.Machine

/-- Every instruction answers a next state, and it is one of two shapes: the accumulator clocked with some value, or a
word of RAM[0] or RAM[1] written with the widened accumulator (R134, R150, R151, R160, R161). -/
theorem exec_shape (i : Instr) (s : State) :
    (∃ v, exec i s = .next (clockA s v)) ∨
    (∃ f2 f3, i = .store f2 f3 ∧ exec i s = .next (memWrite s (operandAddr f2 f3) (widen s.a))) := by
  cases i with
  | load f2 f3 => exact .inl ⟨_, rfl⟩
  | store f2 f3 => exact .inr ⟨f2, f3, rfl, rfl⟩
  | add => exact .inl ⟨_, rfl⟩
  | xor => exact .inl ⟨_, rfl⟩

/-- Stage 5 follows a next state of the execute stage, and a stop of it is the step's (R135, R138). -/
theorem step_of_exec {s t : State} (h : exec (decode (fetch s)) s = .next t) : step s = .next (updatePc t) := by
  rw [step, h]
  rfl

/-- What a step can do: the PC update after one of the two shapes of the execute stage (R134, R135). -/
theorem step_shape (s : State) :
    (∃ v, step s = .next (updatePc (clockA s v))) ∨
    (∃ f2 f3, step s = .next (updatePc (memWrite s (operandAddr f2 f3) (widen s.a)))) := by
  rcases exec_shape (decode (fetch s)) s with ⟨v, h⟩ | ⟨f2, f3, -, h⟩
  · exact .inl ⟨v, by rw [step, h]; rfl⟩
  · exact .inr ⟨f2, f3, by rw [step, h]; rfl⟩

/-- The fetched word (R131). -/
theorem fetch_eq (s : State) : fetch s = if s.pc then s.rom[1] else s.rom[0] := by
  unfold fetch
  cases s.pc <;> rfl

/-- The PC update on its one field (R135). -/
theorem updatePc_eq (s : State) : updatePc s = { s with pc := if s.clk then !s.pc else s.pc } := by
  rcases s with ⟨_, _, pc, _, _, clk⟩
  cases pc <;> cases clk <;> rfl

end Sys2Proof.Machine
end

