-- ==== Sys2Proof/Laws/Run.lean ====
section
/-! SUPPORT. Runs of the machine, one step at a time, and the induction over them. -/

namespace Sys2Proof.Machine

/-- A run of one more step, of any machine: the first step's outcome, then the rest of the run. -/
theorem core_run_succ (M : Host.Core) (n : Nat) (s : M.State) :
    M.run (n + 1) s = (match M.step s with
      | .next t => M.run n t
      | .fault f => .fault f
      | .refused r => .refused r) := rfl

theorem core_run_succ_of_next (M : Host.Core) (n : Nat) (s t : M.State) (h : M.step s = .next t) :
    M.run (n + 1) s = M.run n t := by rw [core_run_succ, h]

/-- A run of no steps ends where it starts. -/
theorem runsTo_zero (s t : State) : RunsTo 0 s t ↔ s = t :=
  ⟨fun h => by injection h, fun h => h ▸ rfl⟩

/-- A run of n + 1 steps is a step and then a run of n (R261). -/
theorem runsTo_succ (n : Nat) (s u : State) :
    RunsTo (n + 1) s u ↔ ∃ t, step s = .next t ∧ RunsTo n t u := by
  constructor
  · intro h
    rcases step_shape s with ⟨v, hs⟩ | ⟨f2, f3, hs⟩ <;>
      exact ⟨_, hs, (core_run_succ_of_next Sys2Proof.core n s _ hs).symm.trans h⟩
  · rintro ⟨t, hs, h⟩
    exact (core_run_succ_of_next Sys2Proof.core n s t hs).trans h

/-- What a step keeps, every run keeps. -/
theorem runsTo_invariant (P : State → State → Prop) (refl : ∀ s, P s s)
    (tail : ∀ s t u, step s = .next t → P t u → P s u) (n : Nat) (s t : State) (h : RunsTo n s t) : P s t := by
  induction n generalizing s with
  | zero => exact (runsTo_zero s t).mp h ▸ refl s
  | succ n ih =>
    obtain ⟨m, hs, hm⟩ := (runsTo_succ n s t).mp h
    exact tail s m t hs (ih m hm)

end Sys2Proof.Machine
end

