-- ==== Sys2Proof/Tests/Slice0.lean ====
section
/-! SUPPORT. The model's own tests. Each expected result is the spec's: the vector (S<n>, G<n>, P<n> of
spec/95_test_vectors.md) or the rule it is computed from by hand is named. Last, for each statement with hypotheses, states
and operands that meet them. -/

namespace Sys2Proof.Tests

open Sys2Proof Sys2Proof.Machine

/-- A small state: A, B, PC, RAM[0], RAM[1], the words at ROM[0] and ROM[1], the clock level. -/
def mk (a b pc : Bit) (r0 r1 : Word4) (w0 w1 : Word8) (clk : Bit) : State :=
  { a := a, b := b, pc := pc, clk := clk
    ram := #v[r0, r1, #v[false, false, false, false], #v[true, true, false, false]]
    rom := #v[w0, w1, wordOfI 0x50, wordOfI 0xC0, wordOfI 0, wordOfI 0, wordOfI 0, wordOfI 0] }

def zero4 : Word4 := #v[false, false, false, false]
def one4 : Word4 := #v[true, false, false, false]
def load00 : Word8 := #v[false, false, false, false, false, false, false, false]
def load01 : Word8 := #v[false, false, false, true, false, false, false, false]
def load10 : Word8 := #v[false, false, true, false, false, false, false, false]
def store00 : Word8 := #v[false, true, false, false, false, false, false, false]
def store01 : Word8 := #v[false, true, false, true, false, false, false, false]
def store11 : Word8 := #v[false, true, true, true, false, false, false, false]
def addWord : Word8 := #v[true, false, false, false, false, false, false, false]
def xorWord : Word8 := #v[true, true, false, false, false, false, false, false]

/-- The next state of a step, or the state itself where the step stops. -/
def after (s : State) : State :=
  match step s with
  | .next t => t
  | .fault _ => s
  | .refused _ => s

/-! ### Well-formedness: an ill-formed term for each check -/

theorem test_wf_instr : (Instr.load true true).wellFormed = true := by decide  -- R89: nothing is refused
theorem test_wf_ram_two : (AsmLine.load (.ramWord 2)).wellFormed = false := by decide  -- R92
theorem test_wf_ram_three : (AsmLine.store (.ramWord 3)).wellFormed = false := by decide  -- R92
theorem test_wf_ram_one : (AsmLine.store (.ramWord 1)).wellFormed = true := by decide  -- R92
theorem test_wf_bit : rawBitWellFormed 2 = false ∧ rawBitWellFormed (-1) = false := by decide  -- R105
theorem test_wf_length : rawWordWellFormed 4 [1, 0, 1] = false := by decide  -- R29
theorem test_wf_word_bits : rawWordWellFormed 4 [1, 0, 2, 0] = false := by decide  -- R20

/-! ### Decoding: one word of each instruction, written from R88 (vectors G6, S9) -/

theorem test_decode_load : decode #v[false, false, true, true, true, true, true, true] = .load true true := by decide
theorem test_decode_store : decode #v[false, true, true, false, true, false, true, false] = .store true false := by decide
theorem test_decode_add : decode #v[true, false, true, true, false, false, false, false] = .add := by decide
theorem test_decode_xor : decode #v[true, true, true, true, true, true, true, true] = .xor := by decide
theorem test_table_numbers : [0x00, 0x3F, 0x41, 0x50, 0x6A, 0x80, 0xB0, 0xC0].map (decodeTableWord 8) =
    [some (.load false false), some (.load true true), some (.store false false), some (.store false true),
     some (.store true false), some .add, some .add, some .xor] := by decide  -- G6, S9
theorem test_wide_word_refused : decodeTableWord 16 0 = none := by decide  -- R80
theorem test_short_bits_refused : decodeBits [true, false] = .error (.wordTooShort 2) := by rfl  -- R80
theorem test_encode : wordToI (encode (.store false true)) = 0x50 ∧ wordToI (encode .xor) = 0xC0 := by decide  -- S9
theorem test_assemble : (parseAsm "STORE 01  ; copy".toList).bind assemble = some store01 := by decide  -- R92
theorem test_assemble_shorthand : (parseAsm "LOAD  RAM[1]".toList).bind assemble = some load01 := by decide  -- R92
theorem test_assemble_refused : (parseAsm "LOAD RAM[2]".toList).bind assemble = none := by decide  -- R92

/-! ### Components -/

theorem test_alu_and_carries : alu1 true true false false false = ⟨true, true⟩ := by decide  -- R111's example, G3
theorem test_alu_or_carries : alu1 false true true false true = ⟨true, true⟩ := by decide  -- G3
theorem test_alu_add : alu1 true true true true false = ⟨true, true⟩ := by decide  -- G3
theorem test_alu_xor : alu1 true true true true true = ⟨false, true⟩ := by decide  -- G3
theorem test_register_keeps : registerLoad #v[true, false, true, true] #v[false, true, false, false] false =
    #v[true, false, true, true] := by decide  -- G7
theorem test_ram_write : ramWrite State.reset.ram 2 #v[true, true, false, false] true =
    #v[one4, zero4, #v[true, true, false, false], zero4] := by decide  -- S6
theorem test_data_word_value : wordValue one4 = 1 := by decide  -- R10, "(value 1)"
theorem test_reset_cells : ramCells State.reset.ram = [(0, 1)] := by decide  -- R60

/-! ### Raw component calls (vectors G12) -/

theorem test_raw_ram_read : rawRamRead State.reset.ram 4 = .error (.fRamAddr .ram) := by rfl
theorem test_raw_rom_read : rawRomRead State.reset.rom 8 = .error (.fRomAddr .rom) := by rfl
theorem test_raw_length : rawRegisterLoad one4 [1, 0, 1] 1 = .error (.fLen .register) := by rfl
theorem test_raw_bit : rawAnd 2 0 = .error (.fBit .andGate) := by rfl
theorem test_raw_order : rawRamWrite State.reset.ram 7 [1, 0, 1] 1 = .error (.fRamAddr .ram) := by rfl
theorem test_fault_codes : [Fault.fBit .orGate, .fLen .register, .fRamAddr .ram, .fRomAddr .rom].map faultCode =
    [1, 2, 3, 4] := by decide  -- R201

/-! ### Instructions, one step each -/

/-- G8 row 2: bits 1 to 3 are ignored. -/
theorem test_load_bit_zero : let s := mk true false false #v[false, true, true, true] zero4 load00 addWord true
    (after s).a = false ∧ (after s).pc = true := by decide
/-- G8 row 3: field 10 reaches RAM[1], and PC wraps. -/
theorem test_load_field_ten : let s := mk false false true zero4 one4 addWord load10 true
    (after s).a = true ∧ (after s).pc = false := by decide
/-- G9 row 2: bits 1 to 3 are cleared. -/
theorem test_store_clears : (after (mk false false false #v[true, true, true, true] zero4 store00 addWord true)).ram[0]
    = zero4 := by decide
/-- G9 row 3: field 11 reaches RAM[1], and RAM[3] is unchanged. -/
theorem test_store_field_eleven :
    let t := after (mk true false false zero4 #v[false, true, true, false] store11 addWord true)
    t.ram[1] = one4 ∧ t.ram[3] = #v[true, true, false, false] ∧ t.a = true := by decide
/-- G10: the carry of A = B = 1 is lost; P5 step 1. -/
theorem test_add_drops_carry : (after (mk true true false one4 zero4 addWord xorWord true)).a = false := by decide
theorem test_add_zero_one : (after (mk false true false one4 zero4 addWord xorWord true)).a = true := by decide
/-- G10; R161's worked example. -/
theorem test_xor_ones : let t := after (mk true true true one4 zero4 addWord xorWord true)
    t.a = false ∧ t.pc = false ∧ t.b = true := by decide
theorem test_xor_zero_one : (after (mk false true true one4 zero4 addWord xorWord true)).a = true := by decide
/-- R136's example: a step at clock level 0. -/
theorem test_clock_low : let s := mk false false false one4 zero4 load00 addWord false
    step s = .next s := by rfl
/-- S7, step 1 from reset. -/
theorem test_first_step : observe (after State.reset) = ⟨true, false, true, true, false⟩ := by decide
/-- The word placed by `withFetchWord` is the first instruction run after reset. -/
theorem test_with_fetch_word : (after (State.reset.withFetchWord 8 0x40)).ram[0] = zero4 := by decide
/-- The gate-level cycle on the same state. -/
theorem test_sequencer : sequencerStep State.reset = .next (after State.reset) := by rfl

/-! ### The host -/

/-- R22, R27: a direct `clock` call on one flip-flop of RAM[2] changes that bit alone (log 28). -/
theorem test_host_clock_ram_bit :
    (testAct (.call (.flipFlopClock (.ramBit 2 1) 1 1)) ⟨State.reset, .running⟩).1.cpu.ram =
      #v[one4, zero4, #v[false, true, false, false], zero4] := by decide
/-- Log 27: a direct call on a stopped block is ignored, a read included. -/
theorem test_call_on_stopped_block : let k : Block := ⟨State.reset, .faulted (.fLen .register)⟩
    testAct (.call (.ramRead 0)) k = (k, .nothing) := by decide

theorem test_host_set_clk : (hostAct (.setClk false) ⟨State.reset, .running⟩).1.cpu.clk = false := by decide  -- R263
theorem test_host_fault_port :
    (blockPorts (testAct (.call (.ramRead 4)) ⟨State.reset, .running⟩).1).fault = some 3 := by decide  -- R144, G12
theorem test_host_write_b :
    (testAct (.call (.flipFlopClock .b 1 1)) ⟨State.reset, .running⟩).1.cpu.b = true := by decide  -- S4, R32

/-! ### Witnesses: for each statement with hypotheses, states and operands that meet them -/

/-- ConstructionAppliesItsParameters: a word not written, and a word written twice. -/
theorem witness_construction : (∀ d, ((2 : RamAddr), d) ∉ Config.ramInit) ∧
    ([(1, zero4), (1, one4)] : RamInit) = [(1, zero4)] ++ (1, one4) :: [] := by
  refine ⟨fun d h => ?_, rfl⟩
  simp [Config.ramInit] at h
/-- OpcodeMapClassifiesEveryWord: a word for each opcode. -/
theorem witness_opcodes : (load00[0] = false ∧ load00[1] = false) ∧ (store01[0] = false ∧ store01[1] = true) ∧
    (addWord[0] = true ∧ addWord[1] = false) ∧ (xorWord[0] = true ∧ xorWord[1] = true) := by decide
/-- IgnoredBitsHaveNoEffect: two ADD words with different fields, two LOAD words with different unused bits, two fields
with one derived address. -/
theorem witness_ignored_bits : (wordOfI 0xB0)[0] = addWord[0] ∧ (wordOfI 0xB0)[1] = addWord[1] ∧
    (wordOfI 0xB0)[0] = true ∧ (wordOfI 0x3F)[2] = (wordOfI 0x30)[2] ∧ (wordOfI 0x3F)[3] = (wordOfI 0x30)[3] ∧
    derivedAddr true false = derivedAddr true true := by decide
/-- BitSequencesDecodeWordByWord: the longest sequence that is too short. -/
theorem witness_short_bits : (List.replicate 7 true).length < 8 := by decide
/-- RamWriteChangesOnlyTheAddressedWord: two addresses. -/
theorem witness_two_addresses : (0 : RamAddr) ≠ 3 := by decide
/-- AddressesOutOfRangeFault: the addresses where its clauses meet, in no two clauses of one access. -/
theorem witness_addresses : ((4 : Int) < 0 ∨ (4 : Int) ≤ 4) ∧ ((-1 : Int) < 0) ∧ ((8 : Int) < 0 ∨ (8 : Int) ≤ 8) ∧
    (3 : Int) = ((3 : RamAddr).val : Int) ∧ (7 : Int) = ((7 : RomAddr).val : Int) ∧
    (∀ k : RamAddr, ¬ ((k.val : Int) < 0 ∨ 4 ≤ (k.val : Int))) ∧
    (∀ k : RomAddr, ¬ ((k.val : Int) < 0 ∨ 8 ≤ (k.val : Int))) := by decide
/-- RawStoresCheckLengthThenBits: a short word, a word with a non-bit, a non-bit clock level, a good call. -/
theorem witness_raw_stores : ([1, 0, 2] : List Int).length ≠ 4 ∧
    (([1, 0, 2, 0] : List Int).all rawBitWellFormed && rawBitWellFormed 1) = false ∧
    (([1, 0, 1, 0] : List Int).all rawBitWellFormed && rawBitWellFormed (-1)) = false ∧
    ([1, 0, 0, 0] : List Int) = one4.toList.map bitInt ∧ (1 : Int) = bitInt true := by decide
/-- RawGatesRefuseNonBits: a non-bit in each place, and bits. -/
theorem witness_raw_gates : rawBitWellFormed 2 = false ∧ (rawBitWellFormed 0 && rawBitWellFormed 2) = false ∧
    (0 : Int) = bitInt false ∧ (1 : Int) = bitInt true := by decide
/-- The four result statements: a word of each opcode class, unused bits set. -/
theorem witness_opcode_classes : wordToI (wordOfI 0x3F) &&& 0xC0 = 0x00 ∧ wordToI (wordOfI 0x7F) &&& 0xC0 = 0x40 ∧
    wordToI (wordOfI 0xBF) &&& 0xC0 = 0x80 ∧ wordToI (wordOfI 0xFF) &&& 0xC0 = 0xC0 := by decide
/-- LoadTakesBitZeroOfTheAddressedWord, StoreWritesTheWidenedAccumulator, AddWritesTheSumAndDropsTheCarry and
XorWritesTheExclusiveOr complete on a state with B = 1. -/
theorem witness_completion : let s := mk false true false one4 zero4 load00 addWord true
    (∃ t, exec (.load false false) s = .next t ∧ t.a = true) ∧
    (∃ t, exec (.store true true) s = .next t ∧ t.ram[1] = zero4) ∧
    (∃ t, exec .add s = .next t ∧ t.a = true) ∧ (∃ t, exec .xor s = .next t ∧ t.a = true) :=
  ⟨⟨_, rfl, by decide⟩, ⟨_, rfl, by decide⟩, ⟨_, rfl, by decide⟩, ⟨_, rfl, by decide⟩⟩
/-- AddAndXorCannotBeToldApart: a ROM with an ADD where the state has an XOR, and equal words elsewhere. -/
theorem witness_exchanged_rom : let s := mk false true false one4 zero4 xorWord load00 true
    let rom := (mk false true false one4 zero4 addWord load00 true).rom
    ∀ k : RomAddr, decode rom[k.val] = decode s.rom[k.val] ∨
      (decode rom[k.val] = .add ∧ decode s.rom[k.val] = .xor) ∨
      (decode rom[k.val] = .xor ∧ decode s.rom[k.val] = .add) := by decide
/-- AccumulatorInstructionsFrame and StoreFrame: each instruction answers a next state, and a store leaves an address out. -/
theorem witness_frames : (∃ t, exec (.load true false) State.reset = .next t) ∧ (∃ t, exec .add State.reset = .next t) ∧
    (∃ t, exec .xor State.reset = .next t) ∧ (∃ t, exec (.store false false) State.reset = .next t) ∧
    (1 : RamAddr) ≠ operandAddr false false := ⟨⟨_, rfl⟩, ⟨_, rfl⟩, ⟨_, rfl⟩, ⟨_, rfl⟩, by decide⟩
/-- StepRunsTheDecodedInstruction: at reset the fetched word decodes to LOAD 00, which answers a next state. -/
theorem witness_step : decode (fetch State.reset) = .load false false ∧ (Instr.load false false).wellFormed = true ∧
    ∃ t, exec (.load false false) State.reset = .next t := ⟨by decide, by decide, ⟨_, rfl⟩⟩
/-- EveryRunIsSafe, TraceConventionsDifferByTheEnds, RunsNeverWriteBClockRomOrUpperRam and FetchAddressAlternates: a run of
one step from reset, at clock level 1. -/
theorem witness_run : State.reset.clk = true ∧ RunsTo 1 State.reset (after State.reset) ∧
    RunsTo 0 (after State.reset) (after State.reset) := ⟨rfl, rfl, rfl⟩
/-- ClockLowRunsChangeNothing: a state at clock level 0 (P6). -/
theorem witness_clock_low : (setClk State.reset false).clk = false := by decide
/-- StepKeepsThePlainInvariant: the reset state meets the invariant, and a step from it answers a next state. -/
theorem witness_plain : Plain State.reset ∧ step State.reset = .next (after State.reset) := by
  refine ⟨⟨rfl, rfl, ?_, rfl, rfl⟩, rfl⟩
  unfold upperBitsClear
  decide
/-- ConstructionMeetsThePlainInvariant: a `RAM_INIT` that writes RAM[1] and clears RAM[3]. -/
theorem witness_plain_init : ∀ x ∈ ([(1, one4), (3, zero4)] : RamInit),
    (x.2[1] = false ∧ x.2[2] = false ∧ x.2[3] = false) ∧ (2 ≤ x.1.val → x.2[0] = false) := by decide
/-- HiddenStateIsNeverObserved: two different states that agree on what a program can observe. -/
theorem witness_hidden :
    let s := mk false false false one4 zero4 load00 addWord true
    let t := mk false false false #v[true, true, true, true] #v[false, true, false, true] (wordOfI 0x0F) (wordOfI 0xBF) true
    AgreeOnObservable s t ∧ s ≠ t := by
  refine ⟨?_, by decide⟩
  unfold AgreeOnObservable
  decide
/-- StepKeepsAgreementOnTheObservable: the states of `witness_hidden`, each of which has a next state. -/
theorem witness_hidden_step :
    let s := mk false false false one4 zero4 load00 addWord true
    let t := mk false false false #v[true, true, true, true] #v[false, true, false, true] (wordOfI 0x0F) (wordOfI 0xBF) true
    AgreeOnObservable s t ∧ step s = .next (after s) ∧ step t = .next (after t) :=
  ⟨witness_hidden.1, rfl, rfl⟩
/-- StoreThenLoadReadsTheAccumulator: STORE 01 at PC, LOAD 10 at the other PC. -/
theorem witness_store_load : let s := mk true false false zero4 zero4 store01 load10 true
    s.clk = true ∧ derivedAddr false true = derivedAddr true false ∧
    decode (fetch s) = .store false true ∧ decode (romRead s.rom (zext3 (!s.pc))) = .load true false := by decide
/-- PlacedWordIsTheNextInstruction: an address other than the fetched one. -/
theorem witness_other_rom_address : (7 : RomAddr) ≠ zext3 State.reset.pc := by decide
/-- FaultedBlockStaysFaulted: a faulted block, and a list of actions without a construction. -/
theorem witness_faulted : (testAct (.call (.gateNot 2)) ⟨State.reset, .running⟩).1.condition = .faulted (.fBit .notGate) ∧
    ∀ romImage ramInit, HostAction.construct romImage ramInit ∉ [HostAction.step, .setClk false, .debug] := by
  refine ⟨by decide, fun r i h => ?_⟩
  simp at h
/-- ShippedHostNeverFaultsTheBlock: a newly constructed block runs. -/
theorem witness_running : (Block.construct Config.romImage Config.ramInit).condition = .running := by decide
/-- FaultingCallChangesNoState: a call that faults, and one that does not. -/
theorem witness_calls : callComponent (.romRead 8) State.reset = .error (.fRomAddr .rom) ∧
    ∃ t, callComponent (.registerLoad 1 [1, 0, 0, 0] 1) State.reset = .ok (t, []) ∧ t.ram[1] = one4 :=
  ⟨rfl, ⟨_, rfl, by decide⟩⟩

end Sys2Proof.Tests
end

/-! ## Storage, the invariants of a step, and what a program cannot observe (spec/10_state.md) -/

namespace Sys2Proof.Machine

/-! ### What a step writes, and where -/

/-- The inversion of a step: the PC update after one of the two shapes of the execute stage (R134, R135). -/
theorem step_next_cases {s t : State} (h : step s = .next t) :
    (∃ v, t = updatePc (clockA s v)) ∨
    (∃ f2 f3, t = updatePc (memWrite s (operandAddr f2 f3) (widen s.a))) := by
  rcases step_shape s with ⟨v, hs⟩ | ⟨f2, f3, hs⟩ <;> rw [hs] at h <;> injection h with h
  · exact .inl ⟨v, h.symm⟩
  · exact .inr ⟨f2, f3, h.symm⟩

/-- No step writes B (R32), the clock level (R36) or the ROM (R58). -/
theorem step_frame {s t : State} (h : step s = .next t) : t.b = s.b ∧ t.clk = s.clk ∧ t.rom = s.rom := by
  rcases step_next_cases h with ⟨v, rfl⟩ | ⟨f2, f3, rfl⟩ <;> exact ⟨rfl, rfl, rfl⟩

/-- A RAM word after a step is as it was, or it is RAM[0] or RAM[1] and holds the widened accumulator (R61, R151). -/
theorem step_ram_word {s t : State} (h : step s = .next t) (k : Nat) (hk : k < 4) :
    t.ram[k] = s.ram[k] ∨ (k < 2 ∧ t.ram[k] = widen s.a) := by
  rcases step_next_cases h with ⟨v, rfl⟩ | ⟨f2, f3, rfl⟩
  · exact .inl rfl
  · simp only [updatePc_ram, memWrite_ram, ramWrite_getElem]
    split
    next hw => exact .inr ⟨hw.2 ▸ operandAddr_lt_two f2 f3, rfl⟩
    next => exact .inl rfl

/-- No step writes RAM[2] or RAM[3] (R61). -/
theorem step_upper_ram {s t : State} (h : step s = .next t) : t.ram[2] = s.ram[2] ∧ t.ram[3] = s.ram[3] :=
  ⟨(step_ram_word h 2 (by decide)).resolve_right (by simp), (step_ram_word h 3 (by decide)).resolve_right (by simp)⟩

/-- What `t` still has of `s` when neither B, the clock level, the ROM, RAM[2] nor RAM[3] was written. -/
def UnwrittenAgree (s t : State) : Prop :=
  t.b = s.b ∧ t.clk = s.clk ∧ t.rom = s.rom ∧ t.ram[2] = s.ram[2] ∧ t.ram[3] = s.ram[3]

theorem UnwrittenAgree.refl (s : State) : UnwrittenAgree s s := ⟨rfl, rfl, rfl, rfl, rfl⟩

/-- The agreement reaches back over a step. -/
theorem UnwrittenAgree.step_tail {s t u : State} (hs : step s = .next t) (h : UnwrittenAgree t u) :
    UnwrittenAgree s u := by
  obtain ⟨hb, hclk, hrom⟩ := step_frame hs
  obtain ⟨h2, h3⟩ := step_upper_ram hs
  unfold UnwrittenAgree at h ⊢
  rwa [hb, hclk, hrom, h2, h3] at h

/-- No run writes B, the clock level, the ROM, RAM[2] or RAM[3]. -/
theorem run_unwrittenAgree (n : Nat) (s t : State) (h : RunsTo n s t) : UnwrittenAgree s t :=
  runsTo_invariant UnwrittenAgree UnwrittenAgree.refl (fun _ _ _ => UnwrittenAgree.step_tail) n s t h

/-! ### The invariant of the shipped machine -/

/-- The word STORE writes has bits 1 to 3 clear (R71, R151). -/
theorem upperBitsClear_widen (a : Bit) : upperBitsClear (widen a) := ⟨rfl, rfl, rfl⟩

/-- A word is [0,0,0,0] when bit 0 is 0 and the upper bits are clear. -/
theorem eq_zero_of_upperBitsClear {d : Word4} (h0 : d[0] = false) (hup : upperBitsClear d) :
    d = #v[false, false, false, false] := by
  obtain ⟨h1, h2, h3⟩ := hup
  rw [vector4_eta d, h0, h1, h2, h3]

/-- Settles O33: what a step leaves alone is as the invariant has it, and the one word it may write is a widened
accumulator, whose upper bits are clear. -/
theorem stepKeepsThePlainInvariant : Obligations.StepKeepsThePlainInvariant := by
  unfold Obligations.StepKeepsThePlainInvariant
  rintro s t ⟨hb, hclk, hup, h2, h3⟩ hs
  obtain ⟨tb, tclk, -⟩ := step_frame hs
  obtain ⟨t2, t3⟩ := step_upper_ram hs
  refine ⟨tb.trans hb, tclk.trans hclk, fun k => ?_, t2.trans h2, t3.trans h3⟩
  rcases step_ram_word hs k.val k.isLt with hk | ⟨-, hk⟩ <;> rw [hk]
  · exact hup k
  · exact upperBitsClear_widen s.a

/-! ### Agreement on what a program can observe -/

/-- Agreeing states fetch words that decode alike: only ROM[0] and ROM[1] are fetched, at the common PC (R90, R131). -/
theorem decode_fetch_agree {s t : State} (h : AgreeOnObservable s t) : decode (fetch s) = decode (fetch t) := by
  obtain ⟨-, -, hpc, -, -, -, hrom0, hrom1⟩ := h
  rw [fetch_eq, fetch_eq, hpc]
  split
  · exact hrom1
  · exact hrom0

/-- LOAD takes the same bit from agreeing states: bit 0 of RAM[0] or RAM[1] (R61, R150). -/
theorem activeBit_memRead_agree {s t : State} (h : AgreeOnObservable s t) (f2 f3 : Bit) :
    activeBit (memRead s (operandAddr f2 f3)) = activeBit (memRead t (operandAddr f2 f3)) := by
  obtain ⟨-, -, -, -, hram0, hram1, -, -⟩ := h
  simp only [memRead, ramRead_eq, activeBit, operandAddr_eq]
  split
  · exact hram1
  · exact hram0

/-- Clocking one value into the accumulators keeps agreement. -/
theorem clockA_agree {s t : State} (h : AgreeOnObservable s t) (v : Bit) :
    AgreeOnObservable (clockA s v) (clockA t v) := by
  obtain ⟨ha, hb, hpc, hclk, hrest⟩ := h
  exact ⟨by rw [clockA_a, clockA_a, ha, hclk], hb, hpc, hclk, hrest⟩

/-- The PC update keeps agreement. -/
theorem updatePc_agree {s t : State} (h : AgreeOnObservable s t) :
    AgreeOnObservable (updatePc s) (updatePc t) := by
  obtain ⟨ha, hb, hpc, hclk, hrest⟩ := h
  exact ⟨ha, hb, by rw [updatePc_pc, updatePc_pc, hpc, hclk], hclk, hrest⟩

/-- Writing one word at one address keeps agreement: a word's bit 0 is the written one's or the old one's in both. -/
theorem memWrite_agree {s t : State} (h : AgreeOnObservable s t) (k : RamAddr) (d : Word4) :
    AgreeOnObservable (memWrite s k d) (memWrite t k d) := by
  obtain ⟨ha, hb, hpc, hclk, hram0, hram1, hrom⟩ := h
  have written (j : Nat) (hj : j < 4) (hold : s.ram[j][0] = t.ram[j][0]) :
      (memWrite s k d).ram[j][0] = (memWrite t k d).ram[j][0] := by
    simp only [memWrite_ram, ramWrite_getElem, hclk]
    split
    · rfl
    · exact hold
  exact ⟨ha, hb, hpc, hclk, written 0 (by decide) hram0, written 1 (by decide) hram1, hrom⟩

/-- From agreeing states every instruction goes to agreeing states: its operands are A, B and bit 0 of RAM[0] or RAM[1],
which are the same in both (R150, R151, R160, R161). -/
theorem exec_agree {s t : State} (h : AgreeOnObservable s t) (i : Instr) :
    ∃ s' t', exec i s = .next s' ∧ exec i t = .next t' ∧ AgreeOnObservable s' t' := by
  have ⟨ha, hb, _⟩ := h
  cases i with
  | load f2 f3 =>
    refine ⟨_, _, rfl, rfl, ?_⟩
    rw [activeBit_memRead_agree h]
    exact clockA_agree h _
  | store f2 f3 =>
    refine ⟨_, _, rfl, rfl, ?_⟩
    rw [ha]
    exact memWrite_agree h _ _
  | add =>
    refine ⟨_, _, rfl, rfl, ?_⟩
    rw [ha, hb]
    exact clockA_agree h _
  | xor =>
    refine ⟨_, _, rfl, rfl, ?_⟩
    rw [ha, hb]
    exact clockA_agree h _

/-- Agreeing states both have a next state, and the next states agree. -/
theorem step_agree {s t : State} (h : AgreeOnObservable s t) :
    ∃ s' t', step s = .next s' ∧ step t = .next t' ∧ AgreeOnObservable s' t' := by
  obtain ⟨u, v, hu, hv, huv⟩ := exec_agree h (decode (fetch s))
  rw [decode_fetch_agree h] at hv
  exact ⟨_, _, step_of_exec hu, step_of_exec hv, updatePc_agree huv⟩

/-- Settles O43: the next states are the agreeing ones of `step_agree`. -/
theorem stepKeepsAgreementOnTheObservable : Obligations.StepKeepsAgreementOnTheObservable := by
  unfold Obligations.StepKeepsAgreementOnTheObservable
  intro s t s' t' h hs ht
  obtain ⟨u, v, hu, hv, huv⟩ := step_agree h
  obtain rfl : s' = u := Host.Outcome.next.inj (hs.symm.trans hu)
  obtain rfl : t' = v := Host.Outcome.next.inj (ht.symm.trans hv)
  exact huv

/-! ### Raw stores -/

/-- A raw call whose check decides what the rest of the computation sees. -/
theorem check_bind {α β : Type} (c : Bool) (x : α) (e : Fault) (f : α → Except Fault β) :
    ((if c then .ok x else .error e : Except Fault α) >>= f) = if c then f x else .error e := by
  cases c <;> rfl

/-- A raw register load of another length than 4 is F_LEN, whatever the bits and the clock level (R29). -/
theorem rawRegisterLoad_of_length_ne (r : Word4) {bits : List Int} (clk : Int) (h : bits.length ≠ 4) :
    rawRegisterLoad r bits clk = .error (.fLen .register) := by
  unfold rawRegisterLoad
  split
  · exact absurd rfl h
  · rfl

/-- A raw register load of a word with a non-bit, or under a non-bit clock level, is the flip-flop's F_BIT (R201). -/
theorem rawRegisterLoad_of_nonbit (r : Word4) {bits : List Int} {clk : Int} (hlen : bits.length = 4)
    (h : (bits.all rawBitWellFormed && rawBitWellFormed clk) = false) :
    rawRegisterLoad r bits clk = .error (.fBit .flipFlop) := by
  obtain ⟨x0, x1, x2, x3, rfl⟩ := List.length_eq_four.mp hlen
  simp only [rawRegisterLoad, rawFfClock_eq, check_bind, ← ite_and]
  refine if_neg fun hall => ?_
  simp only [Bool.and_eq_true] at hall
  obtain ⟨⟨h0, hclk⟩, ⟨h1, -⟩, ⟨h2, -⟩, h3, -⟩ := hall
  simp [h0, h1, h2, h3, hclk] at h

/-- A raw RAM write in range is the addressed register's load (R51). -/
theorem rawRamWrite_of_range (ram : Ram) (k : RamAddr) (data : List Int) (clk : Int) :
    rawRamWrite ram k.val data clk = (rawRegisterLoad ram[k.val] data clk).map (ram.set k.val ·) := by
  rw [rawRamWrite, rawRamAddr_of_range, ok_bind]
  cases rawRegisterLoad ram[k.val] data clk <;> rfl

/-- A raw register load of a word's bits is the typed load (R27). -/
theorem rawRegisterLoad_toList (r d : Word4) (level : Bit) :
    rawRegisterLoad r (d.toList.map bitInt) (bitInt level) = .ok (registerLoad r d level) := by
  rw [← rawRegisterLoad_bitInt]
  conv_lhs => rw [vector4_eta d]
  rfl

/-- Settles O16: the register's load decides, and the RAM hands on what it answers. -/
theorem rawStoresCheckLengthThenBits : Obligations.RawStoresCheckLengthThenBits := by
  unfold Obligations.RawStoresCheckLengthThenBits
  intro ram k data clk
  rw [rawRamWrite_of_range]
  refine ⟨fun hlen => ?_, fun hlen hbit => ?_, ?_⟩
  · rw [rawRegisterLoad_of_length_ne _ _ hlen]
    exact ⟨rfl, rfl⟩
  · rw [rawRegisterLoad_of_nonbit _ hlen hbit]
    exact ⟨rfl, rfl⟩
  · rintro d level rfl rfl
    rw [rawRegisterLoad_toList]
    exact ⟨rfl, rfl⟩

/-- Settles O32, by the induction over runs. -/
theorem runsNeverWriteBClockRomOrUpperRam : Obligations.RunsNeverWriteBClockRomOrUpperRam := by
  unfold Obligations.RunsNeverWriteBClockRomOrUpperRam
  exact run_unwrittenAgree

/-! ### Construction -/

/-- Construction meets the invariant when `RAM_INIT` writes only bit 0 of RAM[0] and RAM[1] (R40, R71). -/
theorem construct_plain (romImage : Rom) {ramInit : RamInit}
    (h : ∀ k d, (k, d) ∈ ramInit → upperBitsClear d ∧ (2 ≤ k.val → d[0] = false)) :
    Plain (State.construct romImage ramInit) := by
  have initial (k : RamAddr) : ramInitial[k.val] = #v[false, false, false, false] := by revert k; decide
  have word (k : RamAddr) := applyRamInit_induction (fun k d => upperBitsClear d ∧ (2 ≤ k.val → d[0] = false))
    ramInit ramInitial (fun k => by rw [initial]; exact ⟨⟨rfl, rfl, rfl⟩, fun _ => rfl⟩) h k
  have upperWord (k : RamAddr) (hk : 2 ≤ k.val) := eq_zero_of_upperBitsClear ((word k).2 hk) (word k).1
  exact ⟨rfl, rfl, fun k => (word k).1, upperWord 2 (by decide), upperWord 3 (by decide)⟩

/-- The shipped `RAM_INIT` writes only bit 0 of RAM[0] (R60). -/
theorem ramInit_upperBitsClear (k : RamAddr) (d : Word4) (h : (k, d) ∈ Config.ramInit) :
    upperBitsClear d ∧ (2 ≤ k.val → d[0] = false) := by
  simp only [Config.ramInit, List.mem_cons, List.not_mem_nil, or_false, Prod.mk.injEq] at h
  rcases h with ⟨rfl, rfl⟩ | ⟨rfl, rfl⟩ <;> exact ⟨⟨rfl, rfl, rfl⟩, by decide⟩

/-- Settles O34: reset is the construction with the shipped parameters. -/
theorem constructionMeetsThePlainInvariant : Obligations.ConstructionMeetsThePlainInvariant := by
  unfold Obligations.ConstructionMeetsThePlainInvariant
  exact ⟨construct_plain _ ramInit_upperBitsClear, fun romImage _ h => construct_plain romImage h⟩

/-! ### Traces -/

/-- Agreeing states show the same observation (R140). -/
theorem observe_agree {s t : State} (h : AgreeOnObservable s t) : observe s = observe t := by
  obtain ⟨ha, hb, hpc, -, hram0, hram1, -, -⟩ := h
  simp only [observe, ffRead_eq, ramRead_eq, Obs.mk.injEq]
  exact ⟨ha, hb, hpc, hram0, hram1⟩

/-- Where a step goes on, the trace is the next state's observation, then the rest from there (R262). -/
theorem traceAfter_succ_of_next {s t : State} (n : Nat) (h : step s = .next t) :
    traceAfter (n + 1) s = observe t :: traceAfter n t := by rw [traceAfter, h]

/-- Where a step goes on, the trace is the present observation, then the rest from the next state (R262). -/
theorem traceBefore_succ_of_next {s t : State} (n : Nat) (h : step s = .next t) :
    traceBefore (n + 1) s = observe s :: traceBefore n t := by rw [traceBefore, h]

/-- Agreeing states give the same traces of every length, in both conventions (R262). -/
theorem trace_agree (n : Nat) {s t : State} (h : AgreeOnObservable s t) :
    traceAfter n s = traceAfter n t ∧ traceBefore n s = traceBefore n t := by
  induction n generalizing s t with
  | zero => exact ⟨rfl, rfl⟩
  | succ n ih =>
    obtain ⟨s', t', hs, ht, h'⟩ := step_agree h
    obtain ⟨ihAfter, ihBefore⟩ := ih h'
    rw [traceAfter_succ_of_next n hs, traceAfter_succ_of_next n ht, traceBefore_succ_of_next n hs,
      traceBefore_succ_of_next n ht, observe_agree h, observe_agree h', ihAfter, ihBefore]
    exact ⟨rfl, rfl⟩

/-- Settles O35, by induction on the length of the trace. -/
theorem hiddenStateIsNeverObserved : Obligations.HiddenStateIsNeverObserved := by
  unfold Obligations.HiddenStateIsNeverObserved
  intro n s t h
  obtain ⟨hafter, hbefore⟩ := trace_agree n h
  exact ⟨hafter, hbefore, observe_agree h⟩

/-! ### The reset state and the storage cells -/

/-- Settles O1, field by field. -/
theorem resetLeavesTheShippedState : Obligations.ResetLeavesTheShippedState := by
  unfold Obligations.ResetLeavesTheShippedState
  refine ⟨rfl, rfl, rfl, rfl, ?_, ?_, ?_⟩ <;> decide

/-- Settles O13, by the specification lemmas of the flip-flop and the register. -/
theorem storageObeysTheClockLevel : Obligations.StorageObeysTheClockLevel := by
  unfold Obligations.StorageObeysTheClockLevel
  exact ⟨fun q d => ⟨ffClock_one q d, ffClock_zero q d, ffRead_eq q⟩,
    fun r bits => ⟨registerLoad_eq r bits true, registerLoad_eq r bits false, registerRead_eq r⟩⟩

end Sys2Proof.Machine

/-! ## The RAM and the ROM (spec/20_memory.md) -/

namespace Sys2Proof.Machine

/-! ### RAM writes -/

/-- Reading any address after a RAM write: the written word there, at clock level 1, else what was there (R51, R52, R55). -/
theorem ramRead_ramWrite (ram : Ram) (k j : RamAddr) (d : Word4) (clk : Bit) :
    ramRead (ramWrite ram k d clk) j = if clk = true ∧ k = j then d else ramRead ram j := by
  simp only [ramRead_eq, ramWrite_getElem, Fin.ext_iff]

/-- Writing a word twice is writing it once (R64). -/
theorem ramWrite_ramWrite_self (ram : Ram) (k : RamAddr) (d : Word4) (clk : Bit) :
    ramWrite (ramWrite ram k d clk) k d clk = ramWrite ram k d clk := by
  cases clk
  · rw [ramWrite_zero, ramWrite_zero]
  · rw [ramWrite_one, ramWrite_one, Vector.set_set]

/-- Settles O14, by what a read after a write returns. -/
theorem ramWriteChangesOnlyTheAddressedWord : Obligations.RamWriteChangesOnlyTheAddressedWord := by
  unfold Obligations.RamWriteChangesOnlyTheAddressedWord
  intro ram k j d
  refine ⟨?_, fun hne => ?_, ramWrite_zero ram k d, ramWrite_ramWrite_self ram k d true⟩
  · rw [ramRead_ramWrite, if_pos ⟨rfl, rfl⟩]
  · rw [ramRead_ramWrite, if_neg fun h => hne h.2.symm]

/-! ### Raw accesses -/

/-- A raw RAM read in range is the typed read (R52). -/
theorem rawRamRead_of_range (ram : Ram) (k : RamAddr) : rawRamRead ram k.val = .ok (ramRead ram k) := by
  rw [rawRamRead, rawRamAddr_of_range, ok_bind]
  rfl

/-- A raw ROM read in range is the typed read (R56). -/
theorem rawRomRead_of_range (rom : Rom) (k : RomAddr) : rawRomRead rom k.val = .ok (romRead rom k) := by
  rw [rawRomRead, rawRomAddr_of_range, ok_bind]
  rfl

/-- A raw RAM read out of range faults (R53). -/
theorem rawRamRead_of_out (ram : Ram) {addr : Int} (h : addr < 0 ∨ 4 ≤ addr) :
    rawRamRead ram addr = .error (.fRamAddr .ram) := by
  rw [rawRamRead, rawRamAddr_of_out addr h, error_bind]

/-- A raw RAM write out of range faults before its data and its clock level are looked at (R53, R205). -/
theorem rawRamWrite_of_out (ram : Ram) {addr : Int} (data : List Int) (clk : Int) (h : addr < 0 ∨ 4 ≤ addr) :
    rawRamWrite ram addr data clk = .error (.fRamAddr .ram) := by
  rw [rawRamWrite, rawRamAddr_of_out addr h, error_bind]

/-- A raw ROM read out of range faults (R57). -/
theorem rawRomRead_of_out (rom : Rom) {addr : Int} (h : addr < 0 ∨ 8 ≤ addr) :
    rawRomRead rom addr = .error (.fRomAddr .rom) := by
  rw [rawRomRead, rawRomAddr_of_out addr h, error_bind]

/-- A raw RAM write in range of a word's bits is the typed write (R51). -/
theorem rawRamWrite_toList (ram : Ram) (k : RamAddr) (d : Word4) (level : Bit) :
    rawRamWrite ram k.val (d.toList.map bitInt) (bitInt level) = .ok (ramWrite ram k d level) := by
  rw [rawRamWrite_of_range, rawRegisterLoad_toList]
  rfl

/-! ### The stages of a CPU cycle, none of which faults -/

/-- A bit as a raw RAM address is `zext_2` of it (R11). -/
theorem bitInt_eq_zext2 (v : Bit) : bitInt v = (zext2 v).val := by cases v <;> rfl

/-- A bit as a raw ROM address is `zext_3` of it (R11). -/
theorem bitInt_eq_zext3 (v : Bit) : bitInt v = (zext3 v).val := by cases v <;> rfl

/-- The LOAD action clocks bit 0 of the addressed word into A (R150). -/
theorem loadAction_eq (addr : Bit) (s : State) :
    loadAction addr s = .ok (clockA s (activeBit (memRead s (zext2 addr)))) := by
  rw [loadAction, bitInt_eq_zext2, rawRamRead_of_range, ok_bind, rawFfClock_bitInt, ok_bind]
  rfl

/-- The ADD action clocks the ALU's result for [1,0] into A (R160). -/
theorem addAction_eq (s : State) : addAction s = .ok (clockA s (alu1 s.a s.b false true false).result) := by
  have alu : rawAlu1 (bitInt s.a) (bitInt s.b) 0 1 0 = _ := rawAlu1_bitInt s.a s.b false true false
  rw [addAction, ffRead_eq, ffRead_eq, alu, ok_bind, rawFfClock_bitInt, ok_bind]
  rfl

/-- The XOR action clocks the ALU's result for [1,1] into A (R161). -/
theorem xorAction_eq (s : State) : xorAction s = .ok (clockA s (alu1 s.a s.b false true true).result) := by
  have alu : rawAlu1 (bitInt s.a) (bitInt s.b) 0 1 1 = _ := rawAlu1_bitInt s.a s.b false true true
  rw [xorAction, ffRead_eq, ffRead_eq, alu, ok_bind, rawFfClock_bitInt, ok_bind]
  rfl

/-- The STORE action writes the widened accumulator at the address (R151). -/
theorem storeAction_eq (addr : Bit) (s : State) :
    storeAction addr s = .ok (memWrite s (zext2 addr) (widen s.a)) := by
  have write : rawRamWrite s.ram (bitInt addr) [bitInt s.a, 0, 0, 0] (bitInt s.clk) = _ :=
    bitInt_eq_zext2 addr ▸ rawRamWrite_toList s.ram (zext2 addr) (widen s.a) s.clk
  rw [storeAction, ffRead_eq, write, ok_bind]
  rfl

/-- Stage 5 is the PC update (R135). -/
theorem pcStage_eq (s : State) : pcStage s = .ok (updatePc s) := by
  have toggle : rawXor (bitInt s.pc) 1 = _ := rawXor_bitInt s.pc true
  rw [pcStage, ffRead_eq, toggle, ok_bind, rawFfClock_bitInt, ok_bind]
  rfl

/-- A conditional whose action always succeeds always succeeds (R134). -/
theorem whenSignal_ok {action : State → Except Fault State} (h : ∀ s, ∃ t, action s = .ok t) (signal : Bit)
    (s : State) : ∃ t, whenSignal signal action s = .ok t := by
  cases signal
  · exact ⟨s, rfl⟩
  · exact h s

/-- The execute stage succeeds, whatever its signals and its address: each of its actions does (R134, R203). -/
theorem executeStage_ok (sig : Signals) (addr : Bit) (s : State) : ∃ t, executeStage sig addr s = .ok t := by
  obtain ⟨s1, hload⟩ := whenSignal_ok (fun s => ⟨_, loadAction_eq addr s⟩) sig.load s
  obtain ⟨s2, hadd⟩ := whenSignal_ok (fun s => ⟨_, addAction_eq s⟩) sig.add s1
  obtain ⟨s3, hxor⟩ := whenSignal_ok (fun s => ⟨_, xorAction_eq s⟩) sig.xor s2
  obtain ⟨s4, hstore⟩ := whenSignal_ok (fun s => ⟨_, storeAction_eq addr s⟩) sig.store s3
  refine ⟨s4, ?_⟩
  rw [executeStage, hload, ok_bind, hadd, ok_bind, hxor, ok_bind, hstore]

/-- The cycle is its execute stage, under the fetched word's signals and derived address, then the PC update: the raw
calls of fetch, decode and control keep their contracts (R131 to R135). -/
theorem sequencerCycle_eq (s : State) :
    sequencerCycle s = (executeStage (controlUnit (fetch s)[0] (fetch s)[1])
      (derivedAddr (fetch s)[2] (fetch s)[3]) s).map updatePc := by
  have andOne (b : Bit) : rawAnd (bitInt b) 1 = .ok (gateAnd b true) := rawAnd_bitInt b true
  rw [sequencerCycle, bitInt_eq_zext3, rawRomRead_of_range, ok_bind]
  simp only [andOne, ok_bind, rawOr_bitInt, rawControlUnit_bitInt, pcStage_eq]
  rfl

/-- A CPU cycle always succeeds: no component call of it breaks its contract (R203). -/
theorem sequencerCycle_ok (s : State) : ∃ t, sequencerCycle s = .ok t := by
  obtain ⟨t, h⟩ := executeStage_ok (controlUnit (fetch s)[0] (fetch s)[1]) (derivedAddr (fetch s)[2] (fetch s)[3]) s
  exact ⟨updatePc t, by rw [sequencerCycle_eq, h]; rfl⟩

/-- Settles O15: the address check comes first in each raw access, and a CPU cycle always succeeds. -/
theorem addressesOutOfRangeFault : Obligations.AddressesOutOfRangeFault := by
  unfold Obligations.AddressesOutOfRangeFault
  refine ⟨fun ram rom addr => ⟨fun h => ?_, rawRomRead_of_out rom, ?_, ?_⟩, fun s c => ?_⟩
  · exact ⟨rawRamRead_of_out ram h, fun data clk => rawRamWrite_of_out ram data clk h⟩
  · rintro k rfl
    exact rawRamRead_of_range ram k
  · rintro k rfl
    exact rawRomRead_of_range rom k
  · obtain ⟨t, h⟩ := sequencerCycle_ok s
    rw [h]
    exact ⟨nofun, nofun⟩

end Sys2Proof.Machine

/-! ## Decoding, the opcode map and the assembler (spec/30_encoding.md) -/

namespace Sys2Proof

/-! ### Decoding and encoding -/

/-- Every word decodes by its opcode bits to one of the four instructions (R81, R88). -/
theorem decode_cases (w : Word8) :
    (w[0] = false ∧ w[1] = false ∧ decode w = .load w[2] w[3]) ∨
    (w[0] = false ∧ w[1] = true ∧ decode w = .store w[2] w[3]) ∨
    (w[0] = true ∧ w[1] = false ∧ decode w = .add) ∨
    (w[0] = true ∧ w[1] = true ∧ decode w = .xor) := by
  unfold decode
  cases w[0] <;> cases w[1] <;> simp

/-- An instruction's canonical word decodes to it (R92). -/
theorem decode_encode (i : Instr) : decode (encode i) = i := by
  cases i <;> rfl

/-- Encoding what a word decodes to sets the bits it ignores to 0 (R90, R92). -/
theorem encode_decode (w : Word8) : encode (decode w) = canonicalWord w := by
  rcases decode_cases w with ⟨h0, h1, hd⟩ | ⟨h0, h1, hd⟩ | ⟨h0, h1, hd⟩ | ⟨h0, h1, hd⟩ <;>
    rw [hd, canonicalWord, h0, h1] <;> rfl

/-- Words with one canonical word decode alike: decoding sees only the canonical word (R90). -/
theorem decode_eq_of_canonicalWord_eq {v w : Word8} (h : canonicalWord v = canonicalWord w) : decode v = decode w := by
  rw [← decode_encode (decode v), encode_decode, h, ← encode_decode, decode_encode]

/-- Words that agree on the opcode, and on the field where the opcode uses it, have one canonical word (R90). -/
theorem canonicalWord_eq_of_used_bits {v w : Word8} (h0 : v[0] = w[0]) (h1 : v[1] = w[1])
    (hfield : v[0] = true ∨ v[2] = w[2] ∧ v[3] = w[3]) : canonicalWord v = canonicalWord w := by
  unfold canonicalWord
  rw [← h0, ← h1]
  rcases hfield with h | ⟨h2, h3⟩
  · rw [h]; rfl
  · rw [h2, h3]

/-! ### The operand field -/

section OperandField
open Machine

/-- LOAD's execute stage reads its field through the operand address only (R86, R150). -/
theorem exec_load (f2 f3 : Bit) (s : State) :
    exec (.load f2 f3) s = .next (clockA s (activeBit (memRead s (operandAddr f2 f3)))) := rfl

/-- STORE's execute stage reads its field through the operand address only (R86, R151). -/
theorem exec_store (f2 f3 : Bit) (s : State) :
    exec (.store f2 f3) s = .next (memWrite s (operandAddr f2 f3) (widen s.a)) := rfl

/-- Settles O6: decoding sees only the canonical word, which holds no ignored bit, and the execute stage sees only the
operand address. -/
theorem ignoredBitsHaveNoEffect : Obligations.IgnoredBitsHaveNoEffect := by
  unfold Obligations.IgnoredBitsHaveNoEffect
  refine ⟨fun v w h0 h1 hfield => ?_, fun f2 f3 g2 g3 s h => ?_, fun f2 f3 => ?_⟩
  · exact decode_eq_of_canonicalWord_eq (canonicalWord_eq_of_used_bits h0 h1 hfield)
  · have haddr : operandAddr f2 f3 = operandAddr g2 g3 := congrArg zext2 h
    simp only [exec_load, exec_store, haddr, and_self]
  · rw [derivedAddr_eq]
    cases f2 <;> cases f3 <;> rfl

end OperandField

/-! ### Sequences of bits -/

/-- A sequence that starts with a whole word decodes to its instruction and hands back the rest (R80). -/
theorem decodeBits_toList_append (w : Word8) (rest : List Bit) :
    decodeBits (w.toList ++ rest) = .ok (decode w, rest) := by
  rw [Machine.word8_eta w]
  rfl

/-- A sequence shorter than a word is refused by name (R80, log 23). -/
theorem decodeBits_of_length_lt {bits : List Bit} (h : bits.length < 8) :
    decodeBits bits = .error (.wordTooShort bits.length) := by
  unfold decodeBits
  split
  · simp only [List.length_cons] at h
    omega
  · rfl

/-- Settles O7: a sequence starts with a whole word or is shorter than one. -/
theorem bitSequencesDecodeWordByWord : Obligations.BitSequencesDecodeWordByWord := by
  unfold Obligations.BitSequencesDecodeWordByWord
  exact ⟨decodeBits_toList_append, fun _ => decodeBits_of_length_lt⟩

/-! ### The assembler's text -/

/-- A piece of a line: it holds neither the separator nor the start of a comment (R92, log 18). -/
def isPiece (piece : List Char) : Bool := piece.all fun c => c != ' ' && c != ';'

/-- A character that neither separates nor starts a comment joins the first piece. -/
theorem asmPieces_cons {c : Char} {rest t : List Char} {ts : List (List Char)} (hspace : c ≠ ' ')
    (hsemi : c ≠ ';') (h : asmPieces rest = t :: ts) : asmPieces (c :: rest) = (c :: t) :: ts := by
  rw [asmPieces, h]
  · exact hsemi
  · exact hspace

/-- A piece joins the first piece of the text after it. -/
theorem asmPieces_append {piece rest t : List Char} {ts : List (List Char)} (hpiece : isPiece piece = true)
    (h : asmPieces rest = t :: ts) : asmPieces (piece ++ rest) = (piece ++ t) :: ts := by
  induction piece with
  | nil => exact h
  | cons c cs ih =>
    simp only [isPiece, List.all_cons, Bool.and_eq_true, bne_iff_ne] at hpiece
    obtain ⟨⟨hspace, hsemi⟩, hcs⟩ := hpiece
    exact asmPieces_cons hspace hsemi (ih hcs)

/-- Two pieces with a space between them split at it. -/
theorem asmPieces_pair {first second : List Char} (hfirst : isPiece first = true) (hsecond : isPiece second = true) :
    asmPieces (first ++ ' ' :: second) = [first, second] := by
  have last : asmPieces second = [second] := by
    simpa using asmPieces_append hsecond (rest := []) rfl
  have split : asmPieces (' ' :: second) = [] :: [second] := by rw [asmPieces, last]
  simpa using asmPieces_append hfirst split

/-- An operand's text is one piece (R92). -/
theorem operandText_isPiece (o : AsmOperand) : isPiece (operandText o) = true := by
  cases o with
  | field f2 f3 => cases f2 <;> cases f3 <;> rfl
  | ramWord k => revert k; decide

/-- An operand's text is not empty. -/
theorem operandText_isEmpty (o : AsmOperand) : (operandText o).isEmpty = false := by
  cases o <;> rfl

/-- An operand's text reads back (R92). -/
theorem parseOperand_operandText (o : AsmOperand) : parseOperand (operandText o) = some o := by
  cases o with
  | field f2 f3 => cases f2 <;> cases f3 <;> rfl
  | ramWord k => revert k; decide

/-- A LOAD line is its mnemonic, a space and its operand (R92). -/
theorem asmText_load (o : AsmOperand) : asmText (.load o) = ['L', 'O', 'A', 'D'] ++ ' ' :: operandText o := rfl

/-- A STORE line is its mnemonic, a space and its operand (R92). -/
theorem asmText_store (o : AsmOperand) : asmText (.store o) = ['S', 'T', 'O', 'R', 'E'] ++ ' ' :: operandText o := rfl

/-- The non-empty pieces of a line with an operand are the mnemonic and the operand's text (R92). -/
theorem asmPieces_operand_line {mnemonic : List Char} (hpiece : isPiece mnemonic = true)
    (hne : mnemonic.isEmpty = false) (o : AsmOperand) : (asmPieces (mnemonic ++ ' ' :: operandText o)).filter (fun t => !t.isEmpty) =
      [mnemonic, operandText o] := by
  rw [asmPieces_pair hpiece (operandText_isPiece o)]
  simp [hne, operandText_isEmpty]

/-- A line's text reads back (R92). -/
theorem parseAsm_asmText (l : AsmLine) : parseAsm (asmText l) = some l := by
  cases l with
  | load o =>
    rw [parseAsm, asmText_load, asmPieces_operand_line rfl rfl]
    exact congrArg (Option.map AsmLine.load) (parseOperand_operandText o)
  | store o =>
    rw [parseAsm, asmText_store, asmPieces_operand_line rfl rfl]
    exact congrArg (Option.map AsmLine.store) (parseOperand_operandText o)
  | add => decide
  | xor => decide

/-! ### The assembler and the disassembler -/

/-- The disassembled line stands for the decoded instruction (R92). -/
theorem asmInstr_disassemble (w : Word8) : asmInstr (disassemble w) = some (decode w) := by
  unfold disassemble
  cases decode w <;> rfl

/-- An operand stands for a field exactly when it is not `RAM[2]` or `RAM[3]` (R92). -/
theorem operandField_isSome (o : AsmOperand) : (operandField o).isSome = o.wellFormed := by
  cases o with
  | field f2 f3 => rfl
  | ramWord k => revert k; decide

/-- A line assembles exactly when it is well formed (R92). -/
theorem assemble_isSome (l : AsmLine) : (assemble l).isSome = l.wellFormed := by
  cases l with
  | load o => simp only [assemble, asmInstr, Option.isSome_map, operandField_isSome, AsmLine.wellFormed]
  | store o => simp only [assemble, asmInstr, Option.isSome_map, operandField_isSome, AsmLine.wellFormed]
  | add => rfl
  | xor => rfl

/-- Settles O8: text reads back, and what is disassembled stands for the decoded instruction, whose encoding is the
canonical word. -/
theorem assemblerRoundTrip : Obligations.AssemblerRoundTrip := by
  unfold Obligations.AssemblerRoundTrip
  refine ⟨fun w => ⟨parseAsm_asmText _, ?_⟩, fun l => ⟨parseAsm_asmText l, assemble_isSome l⟩⟩
  rw [assemble, asmInstr_disassemble, Option.map_some, encode_decode]

/-! ### The opcode map -/

/-- Every instruction has its row of the opcode map (R83, R88). -/
theorem tableRow_statement (i : Instr) : Laws.TableRow.Statement i := by
  cases i with
  | load f2 f3 => exact Laws.TableRow.load f2 f3
  | store f2 f3 => exact Laws.TableRow.store f2 f3
  | add => exact Laws.TableRow.add
  | xor => exact Laws.TableRow.xor

/-- The opcode mask picks bits 6 and 7 of a number (R83). -/
theorem and_opcodeMask (x : Nat) : x &&& 0xC0 = x / 2 ^ 6 % 2 ^ 2 * 2 ^ 6 := by
  have mask : 0xC0 = (2 ^ 2 - 1) * 2 ^ 6 := rfl
  apply Nat.eq_of_testBit_eq
  intro i
  rw [mask]
  simp only [Nat.testBit_and, Nat.testBit_mul_two_pow, Nat.testBit_mod_two_pow, Nat.testBit_div_two_pow,
    Nat.testBit_two_pow_sub_one]
  by_cases h : 6 ≤ i
  · simp [h, Nat.sub_add_cancel h, Bool.and_comm]
  · simp [h]

/-- The opcode mask keeps the opcode bits of `I(w)` and clears the others (R83). -/
theorem wordToI_and_opcodeMask (w : Word8) : wordToI w &&& 0xC0 = w[0].toNat * 128 + w[1].toNat * 64 := by
  have hb (b : Bool) : b.toNat ≤ 1 := b.toNat_le
  have h0 := hb w[0]; have h1 := hb w[1]; have h2 := hb w[2]; have h3 := hb w[3]
  have h4 := hb w[4]; have h5 := hb w[5]; have h6 := hb w[6]; have h7 := hb w[7]
  rw [and_opcodeMask, wordToI]
  omega

/-- Every row's mask is the opcode's (R88). -/
theorem opcodeTable_mask : ∀ r ∈ opcodeTable, r.mask = 0xC0 := by decide

/-- A row accepts a word exactly when it accepts its canonical word: both have the same opcode (R83, R90). -/
theorem accepts_canonicalWord {r : OpcodeRow} (hr : r ∈ opcodeTable) (w : Word8) :
    r.accepts (canonicalWord w) = r.accepts w := by
  rw [OpcodeRow.accepts, OpcodeRow.accepts, opcodeTable_mask r hr, wordToI_and_opcodeMask, wordToI_and_opcodeMask]
  rfl

/-- Settles O4: a row accepts a word as it accepts the decoded instruction's encoding. -/
theorem opcodeMapClassifiesEveryWord : Obligations.OpcodeMapClassifiesEveryWord := by
  unfold Obligations.OpcodeMapClassifiesEveryWord
  refine ⟨by decide, fun w => ?_⟩
  obtain ⟨⟨r, hr, hmnemonic⟩, row, -⟩ := tableRow_statement (decode w)
  have accepts (r) (hr : r ∈ opcodeTable) : r.accepts w = true ↔ r.mnemonic = mnemonicOf (decode w) := by
    rw [← accepts_canonicalWord hr, ← encode_decode]
    exact row r hr
  refine ⟨accepts, ⟨r, hr, (accepts r hr).mpr hmnemonic⟩, ?_⟩
  rcases decode_cases w with ⟨h0, h1, hd⟩ | ⟨h0, h1, hd⟩ | ⟨h0, h1, hd⟩ | ⟨h0, h1, hd⟩ <;> simp [h0, h1, hd]

/-! ### The control decoder -/

/-- Settles O12: the four opcodes one by one, and every word's instruction by its opcode. -/
theorem controlSignalsAreOneHot : Obligations.ControlSignalsAreOneHot := by
  unfold Obligations.ControlSignalsAreOneHot
  refine ⟨fun op0 op1 => ?_, fun w => ?_⟩
  · cases op0 <;> cases op1 <;> rfl
  · rcases decode_cases w with ⟨h0, h1, hd⟩ | ⟨h0, h1, hd⟩ | ⟨h0, h1, hd⟩ | ⟨h0, h1, hd⟩ <;>
      rw [h0, h1, hd] <;> rfl

end Sys2Proof

/-! ## Gates, full adder and ALU (spec/40_gates_alu.md) -/

namespace Sys2Proof.Machine

/-! ### Raw gates -/

/-- A raw value outside {0, 1} is the component's F_BIT (R105, R201). -/
theorem rawBit_of_nonbit (c : Component) {x : Int} (h : rawBitWellFormed x = false) :
    rawBit c x = .error (.fBit c) := by
  rw [rawBit_eq, h]
  rfl

/-- A component that checks two inputs in turn answers its F_BIT when either is a non-bit: a non-bit in the first place
stops the call, and one in the second place stops it whatever the first check answered (R105, R201). -/
theorem rawBit_bind_rawBit_of_nonbit {α : Type} (c : Component) {x y : Int} (f : Bit → Bit → Except Fault α)
    (h : (rawBitWellFormed x && rawBitWellFormed y) = false) :
    (rawBit c x >>= fun a => rawBit c y >>= f a) = .error (.fBit c) := by
  rcases Bool.and_eq_false_iff.mp h with hx | hy
  · rw [rawBit_of_nonbit c hx, error_bind]
  · simp only [rawBit_of_nonbit c hy, error_bind]
    rw [rawBit_eq, check_bind, ite_self]

theorem rawNot_of_nonbit {x : Int} (h : rawBitWellFormed x = false) : rawNot x = .error (.fBit .notGate) := by
  rw [rawNot, rawBit_of_nonbit _ h, error_bind]

theorem rawAnd_of_nonbit {x y : Int} (h : (rawBitWellFormed x && rawBitWellFormed y) = false) :
    rawAnd x y = .error (.fBit .andGate) := rawBit_bind_rawBit_of_nonbit _ _ h

theorem rawOr_of_nonbit {x y : Int} (h : (rawBitWellFormed x && rawBitWellFormed y) = false) :
    rawOr x y = .error (.fBit .orGate) := rawBit_bind_rawBit_of_nonbit _ _ h

theorem rawXor_of_nonbit {x y : Int} (h : (rawBitWellFormed x && rawBitWellFormed y) = false) :
    rawXor x y = .error (.fBit .xorGate) := rawBit_bind_rawBit_of_nonbit _ _ h

/-- Settles O17: each gate checks its inputs under its own name, then is the typed gate. -/
theorem rawGatesRefuseNonBits : Obligations.RawGatesRefuseNonBits := by
  unfold Obligations.RawGatesRefuseNonBits
  refine fun x y => ⟨rawNot_of_nonbit, fun h => ⟨rawAnd_of_nonbit h, rawOr_of_nonbit h, rawXor_of_nonbit h⟩, ?_⟩
  rintro a b rfl rfl
  exact ⟨rawNot_bitInt a, rawAnd_bitInt a b, rawOr_bitInt a b, rawXor_bitInt a b⟩

/-! ### Gates -/

/-- NOT as arithmetic (R100). -/
theorem gateNot_toNat (a : Bit) : (gateNot a).toNat = 1 - a.toNat := by cases a <;> rfl

/-- Settles O9, by the specification lemma of each gate. -/
theorem gatesFollowTheirTables : Obligations.GatesFollowTheirTables := by
  unfold Obligations.GatesFollowTheirTables
  exact fun a b => ⟨gateNot_toNat a, gateAnd_eq a b, gateOr_eq a b, gateXor_eq a b⟩

/-! ### The full adder -/

/-- The sum output (R106). -/
@[simp] theorem fullAdder_sum (a b cin : Bit) : (fullAdder a b cin).sum = (a ^^ b ^^ cin) := by
  simp only [fullAdder, gateXor_eq]

/-- The carry output (R106). -/
@[simp] theorem fullAdder_cout (a b cin : Bit) :
    (fullAdder a b cin).cout = ((a && b) || ((a ^^ b) && cin)) := by
  simp only [fullAdder, carryOut, gateOr_eq, gateAnd_eq, gateXor_eq]

/-- The two outputs are the binary digits of the sum of the three inputs: R107's table, row by row. -/
theorem add_toNat_eq_fullAdder (a b cin : Bit) :
    a.toNat + b.toNat + cin.toNat = (fullAdder a b cin).sum.toNat + 2 * (fullAdder a b cin).cout.toNat := by
  cases a <;> cases b <;> cases cin <;> rfl

/-- Settles O10: the adder is R106's formulas by definition, and the arithmetic is R107's table. -/
theorem fullAdderAddsThreeBits : Obligations.FullAdderAddsThreeBits := by
  unfold Obligations.FullAdderAddsThreeBits
  exact fun a b cin => ⟨rfl, rfl, add_toNat_eq_fullAdder a b cin⟩

/-! ### The ALU -/

/-- The selects of R109 are one-hot, so the OR of the masked partial results is the selected one (R110). -/
theorem alu1_result (a b cin op0 op1 : Bit) : (alu1 a b cin op0 op1).result =
    if op0 then (if op1 then a ^^ b else (fullAdder a b cin).sum) else (if op1 then a || b else a && b) := by
  cases op0 <;> cases op1 <;> simp [alu1]

/-- The carry-out is the adder's whatever the operation (R111). -/
@[simp] theorem alu1_cout (a b cin op0 op1 : Bit) : (alu1 a b cin op0 op1).cout = (fullAdder a b cin).cout := rfl

/-- Settles O11, by what the ALU selects and what the adder answers. -/
theorem aluSelectsAndAlwaysCarries : Obligations.AluSelectsAndAlwaysCarries := by
  unfold Obligations.AluSelectsAndAlwaysCarries
  intro a b cin
  have hadd : (alu1 a b cin true false).result = (fullAdder a b cin).sum := alu1_result a b cin true false
  refine ⟨alu1_result a b cin false false, alu1_result a b cin false true, hadd, ?_,
    alu1_result a b cin true true, fun op0 op1 => ⟨alu1_cout a b cin op0 op1, ?_⟩⟩
  · rw [hadd, fullAdder_sum]
  · rw [alu1_cout, fullAdder_cout]

end Sys2Proof.Machine

/-! ## The step, its sequencing and its runs (spec/41_sequencer.md) -/

namespace Sys2Proof.Machine

/-! ### The step as its stages -/

/-- The execute stage writes neither PC nor the clock level (R134). -/
theorem exec_pc_clk {i : Instr} {s t : State} (h : exec i s = .next t) : t.pc = s.pc ∧ t.clk = s.clk := by
  rcases exec_shape i s with ⟨v, hs⟩ | ⟨f2, f3, -, hs⟩ <;> cases hs.symm.trans h <;> exact ⟨rfl, rfl⟩

/-- Settles O25: stage 5 follows whatever the execute stage answers. -/
theorem stepRunsTheDecodedInstruction : Obligations.StepRunsTheDecodedInstruction := by
  unfold Obligations.StepRunsTheDecodedInstruction
  refine fun s i => ⟨fetch_eq s, ?_⟩
  rintro rfl -
  refine ⟨fun t h => ?_, fun f h => ?_, fun r h => ?_⟩
  · obtain ⟨hpc, hclk⟩ := exec_pc_clk h
    refine ⟨hpc, hclk, ?_⟩
    rw [step_of_exec h, updatePc_eq, Bool.xor_true]
  · rw [step, h, completeCycle]
  · rw [step, h, completeCycle]

/-- Every step has a next state (R141, R203). -/
theorem step_total (s : State) : ∃ t, step s = .next t := by
  rcases step_shape s with ⟨v, h⟩ | ⟨f2, f3, h⟩ <;> exact ⟨_, h⟩

/-! ### The word placed for the next fetch -/

/-- The integer view of a word is the number with `w[7]` as bit 0, up to `w[0]` as bit 7 (R10). -/
theorem wordToI_eq_ofBits (w : Word8) : wordToI w = Nat.ofBits fun i : Fin 8 => w[7 - i.val] := by
  simp only [wordToI, Nat.ofBits, Fin.foldr_succ, Fin.foldr_zero, Fin.val_succ, Fin.val_zero, Nat.reduceAdd,
    Nat.reduceSub]
  omega

/-- The integer view of a word has eight bits (R10). -/
theorem wordToI_lt (w : Word8) : wordToI w < 2 ^ 8 := by
  rw [wordToI_eq_ofBits]
  exact Nat.ofBits_lt_two_pow _

/-- Element i of a word is bit 7 − i of its integer view (R10). -/
theorem testBit_wordToI (w : Word8) (i : Nat) (hi : i < 8) : (wordToI w).testBit (7 - i) = w[i] := by
  rw [wordToI_eq_ofBits, Nat.testBit_ofBits_lt _ _ (by omega)]
  congr 1
  exact Nat.sub_sub_self (by omega)

/-- Element i of the word with a given integer view is bit 7 − i of it (R10). -/
theorem wordOfI_getElem (n i : Nat) (hi : i < 8) : (wordOfI n)[i] = n.testBit (7 - i) := by
  have : i = 0 ∨ i = 1 ∨ i = 2 ∨ i = 3 ∨ i = 4 ∨ i = 5 ∨ i = 6 ∨ i = 7 := by omega
  rcases this with rfl | rfl | rfl | rfl | rfl | rfl | rfl | rfl <;> rfl

/-- A word is the word of its integer view (R10). -/
theorem wordOfI_wordToI (w : Word8) : wordOfI (wordToI w) = w := by
  ext i hi
  rw [wordOfI_getElem, testBit_wordToI w i hi]

/-- Eight bits of a word's integer view are the word (R10). -/
theorem wordOfI_wordToI_mod (w : Word8) : wordOfI (wordToI w % 2 ^ 8) = w := by
  rw [Nat.mod_eq_of_lt (wordToI_lt w), wordOfI_wordToI]

/-- The word placed is the one the next step fetches (R131, log 19). -/
theorem fetch_withFetchWord (s : State) (w : Word8) : fetch (s.withFetchWord 8 (wordToI w)) = w := by
  simp only [fetch, romRead, State.withFetchWord, placeFetchWord_rom, placeFetchWord_pc, ffRead_eq,
    Vector.getElem_set_self, wordOfI_wordToI_mod]

/-- Placing a word leaves the other words of the ROM as they were (log 19). -/
theorem romRead_withFetchWord_ne (s : State) (nbits n : Nat) {k : RomAddr} (h : k ≠ zext3 s.pc) :
    romRead (s.withFetchWord nbits n).rom k = romRead s.rom k :=
  Vector.getElem_set_ne (zext3 s.pc).isLt k.isLt fun hk => h (Fin.ext hk.symm)

/-- Settles O37: the word placed is the word fetched, and the step runs what it decodes to. -/
theorem placedWordIsTheNextInstruction : Obligations.PlacedWordIsTheNextInstruction := by
  unfold Obligations.PlacedWordIsTheNextInstruction
  intro s w
  refine ⟨fetch_withFetchWord s w, ?_, ?_, rfl, fun k => romRead_withFetchWord_ne s 8 (wordToI w)⟩
  · rw [fetch_withFetchWord, decodeTableWord, if_pos le_rfl, wordOfI_wordToI_mod]
  · rw [step, fetch_withFetchWord]

/-! ### The step as a function of the fetched word -/

/-- LOAD's bit is bit 0 of the word at the derived address (R150). -/
theorem activeBit_memRead_zext2 (s : State) (addr : Bit) :
    activeBit (memRead s (zext2 addr)) = if addr then s.ram[1][0] else s.ram[0][0] := by
  rw [activeBit, memRead, ramRead_eq]
  cases addr <;> rfl

/-- A write at the derived address replaces RAM[0] or RAM[1] at clock level 1, and nothing at level 0 (R51, R151). -/
theorem ramWrite_zext2 (ram : Ram) (addr : Bit) (d : Word4) (clk : Bit) :
    ramWrite ram (zext2 addr) d clk = if clk then (if addr then ram.set 1 d else ram.set 0 d) else ram := by
  cases clk
  · exact ramWrite_zero ram (zext2 addr) d
  · rw [ramWrite_one]
    cases addr <;> rfl

/-- ADD clocks the sum of A and B into A, since the adder's carry-in is 0 (R160). -/
theorem exec_add (s : State) : exec .add s = .next (clockA s (s.a ^^ s.b)) := by
  have sum : (alu1 s.a s.b false true false).result = (s.a ^^ s.b) := by
    rw [alu1_result, if_pos rfl, if_neg Bool.false_ne_true, fullAdder_sum, Bool.xor_false]
  rw [← sum]
  rfl

/-- XOR clocks A xor B into A (R161). -/
theorem exec_xor (s : State) : exec .xor s = .next (clockA s (s.a ^^ s.b)) :=
  congrArg (Host.Outcome.next <| clockA s ·) (alu1_result s.a s.b false true true)

/-- The fetched word by its index in the ROM (R131). -/
theorem romWord_eq_fetch (s : State) (h : (if s.pc = true then 1 else 0) < 8) :
    s.rom[if s.pc = true then 1 else 0] = fetch s := by
  rcases s with ⟨_, _, pc, _, _, _⟩
  cases pc <;> rfl

/-- The fields that differ after an accumulator instruction's step are A and PC (R134, R135). -/
theorem updatePc_clockA (s : State) (v : Bit) : updatePc (clockA s v) =
    { s with a := if s.clk then v else s.a, pc := if s.clk then !s.pc else s.pc } := updatePc_eq (clockA s v)

/-- The fields that differ after a STORE's step are one word of the RAM and PC (R134, R135). -/
theorem updatePc_memWrite_zext2 (s : State) (addr : Bit) (d : Word4) : updatePc (memWrite s (zext2 addr) d) =
    { s with ram := if s.clk then (if addr then s.ram.set 1 d else s.ram.set 0 d) else s.ram,
             pc := if s.clk then !s.pc else s.pc } := by
  rw [updatePc_eq, memWrite, ramWrite_zext2]

/-- Settles O26, opcode by opcode: the signals select the decoded instruction's action, and stage 5 follows. -/
theorem stepIsTheFunctionTheSpecWritesOut : Obligations.StepIsTheFunctionTheSpecWritesOut := by
  unfold Obligations.StepIsTheFunctionTheSpecWritesOut
  intro s
  simp only [romWord_eq_fetch]
  rcases decode_cases (fetch s) with ⟨h0, h1, hd⟩ | ⟨h0, h1, hd⟩ | ⟨h0, h1, hd⟩ | ⟨h0, h1, hd⟩
  · rw [step_of_exec (hd ▸ exec_load (fetch s)[2] (fetch s)[3] s), updatePc_clockA, operandAddr, activeBit_memRead_zext2]
    simp [h0, h1, derivedAddr]
  · rw [step_of_exec (hd ▸ exec_store (fetch s)[2] (fetch s)[3] s), operandAddr, updatePc_memWrite_zext2]
    simp [h0, h1, derivedAddr, widen]
  · rw [step_of_exec (hd ▸ exec_add s), updatePc_clockA]
    simp [h0, h1]
  · rw [step_of_exec (hd ▸ exec_xor s), updatePc_clockA]
    simp [h0, h1]

/-! ### The gate-level cycle -/

/-- Under the signal LOAD alone the execute stage is the LOAD action (R134). -/
theorem executeStage_load (addr : Bit) (s : State) :
    executeStage ⟨true, false, false, false⟩ addr s = loadAction addr s := bind_pure (loadAction addr s)

/-- Under the signal STORE alone the execute stage is the STORE action (R134). -/
theorem executeStage_store (addr : Bit) (s : State) :
    executeStage ⟨false, true, false, false⟩ addr s = storeAction addr s := rfl

/-- Under the signal ADD alone the execute stage is the ADD action (R134). -/
theorem executeStage_add (addr : Bit) (s : State) :
    executeStage ⟨false, false, true, false⟩ addr s = addAction s := bind_pure (addAction s)

/-- Under the signal XOR alone the execute stage is the XOR action (R134). -/
theorem executeStage_xor (addr : Bit) (s : State) :
    executeStage ⟨false, false, false, true⟩ addr s = xorAction s := bind_pure (xorAction s)

/-- Under the signals and the derived address of a word, the four conditionals do what the decoded instruction does (R134). -/
theorem executeStage_eq_exec_decode (w : Word8) (s : State) :
    ∃ t, executeStage (controlUnit w[0] w[1]) (derivedAddr w[2] w[3]) s = .ok t ∧ exec (decode w) s = .next t := by
  rcases decode_cases w with ⟨h0, h1, hd⟩ | ⟨h0, h1, hd⟩ | ⟨h0, h1, hd⟩ | ⟨h0, h1, hd⟩ <;> rw [h0, h1, hd]
  · exact ⟨_, (executeStage_load _ s).trans (loadAction_eq _ s), rfl⟩
  · exact ⟨_, (executeStage_store _ s).trans (storeAction_eq _ s), rfl⟩
  · exact ⟨_, (executeStage_add _ s).trans (addAction_eq s), rfl⟩
  · exact ⟨_, (executeStage_xor _ s).trans (xorAction_eq s), rfl⟩

/-- Settles O27: the execute stages answer alike, and the PC update follows in both. -/
theorem gateLevelSequencerAgreesWithStep : Obligations.GateLevelSequencerAgreesWithStep := by
  unfold Obligations.GateLevelSequencerAgreesWithStep
  intro s
  obtain ⟨t, hstage, hexec⟩ := executeStage_eq_exec_decode (fetch s) s
  rw [sequencerStep, sequencerCycle_eq, hstage, step_of_exec hexec]
  rfl

/-! ### Runs -/

/-- Every state has a run of every length (R141, R203, R261). -/
theorem safeRun (n : Nat) (s : State) : SafeRun n s := by
  induction n generalizing s with
  | zero => exact ⟨s, rfl⟩
  | succ n ih =>
    obtain ⟨t, hs⟩ := step_total s
    obtain ⟨u, hu⟩ := ih t
    exact ⟨u, (runsTo_succ n s u).mpr ⟨t, hs, hu⟩⟩

/-- Runs compose (R261). -/
theorem runsTo_add {n m : Nat} {s t u : State} (hn : RunsTo n s t) (hm : RunsTo m t u) : RunsTo (n + m) s u := by
  induction n generalizing s with
  | zero =>
    rw [(runsTo_zero s t).mp hn, Nat.zero_add]
    exact hm
  | succ n ih =>
    obtain ⟨v, hs, hv⟩ := (runsTo_succ n s t).mp hn
    rw [Nat.add_right_comm]
    exact (runsTo_succ (n + m) s u).mpr ⟨v, hs, ih hv⟩

/-- Settles O28, by induction on the number of steps. -/
theorem everyRunIsSafe : Obligations.EveryRunIsSafe := by
  unfold Obligations.EveryRunIsSafe
  exact fun n m s => ⟨safeRun n s, fun t u => runsTo_add⟩

/-! ### Clock level 0 -/

/-- At clock level 0 the accumulator keeps its value (R22). -/
theorem clockA_of_clk_low {s : State} (h : s.clk = false) (v : Bit) : clockA s v = s := by
  rw [clockA, h, ffClock_zero, ← h]

/-- At clock level 0 the RAM keeps its words (R51). -/
theorem memWrite_of_clk_low {s : State} (h : s.clk = false) (k : RamAddr) (d : Word4) : memWrite s k d = s := by
  rw [memWrite, h, ramWrite_zero, ← h]

/-- At clock level 0 the PC keeps its value (R135). -/
theorem updatePc_of_clk_low {s : State} (h : s.clk = false) : updatePc s = s := by
  rw [updatePc_eq, h, if_neg Bool.false_ne_true, ← h]

/-- At clock level 0 a step changes nothing (R136). -/
theorem step_of_clk_low {s : State} (h : s.clk = false) : step s = .next s := by
  rcases step_shape s with ⟨v, hs⟩ | ⟨f2, f3, hs⟩
  · rw [hs, clockA_of_clk_low h, updatePc_of_clk_low h]
  · rw [hs, memWrite_of_clk_low h, updatePc_of_clk_low h]

/-- A state that steps to itself runs to itself (R136). -/
theorem runsTo_self {s : State} (h : step s = .next s) (n : Nat) : RunsTo n s s := by
  induction n with
  | zero => rfl
  | succ n ih => exact (runsTo_succ n s s).mpr ⟨s, h, ih⟩

/-- Settles O29: a stutter step, repeated. -/
theorem clockLowRunsChangeNothing : Obligations.ClockLowRunsChangeNothing := by
  unfold Obligations.ClockLowRunsChangeNothing
  exact fun n s h => ⟨step_of_clk_low h, runsTo_self (step_of_clk_low h) n⟩

/-! ### Control flow at clock level 1 -/

/-- A step at clock level 1 toggles PC, whatever the instruction (R135). -/
theorem step_pc_of_clk_high {s t : State} (hclk : s.clk = true) (h : step s = .next t) : t.pc = !s.pc := by
  rcases step_next_cases h with ⟨v, rfl⟩ | ⟨f2, f3, rfl⟩ <;> simp [hclk]

/-- After `n` steps at clock level 1, PC has been toggled `n` times (R143). -/
theorem run_pc_of_clk_high {n : Nat} {s t : State} (hclk : s.clk = true) (h : RunsTo n s t) :
    t.pc = (s.pc ^^ decide (n % 2 = 1)) := by
  induction n generalizing s with
  | zero =>
    rw [(runsTo_zero s t).mp h]
    exact (Bool.xor_false _).symm
  | succ n ih =>
    obtain ⟨u, hs, hu⟩ := (runsTo_succ n s t).mp h
    have parity : decide ((n + 1) % 2 = 1) = !decide (n % 2 = 1) := by
      rw [← decide_not]
      exact decide_eq_decide.mpr (by omega)
    obtain ⟨-, hclk', -⟩ := step_frame hs
    rw [ih (hclk'.trans hclk) hu, step_pc_of_clk_high hclk hs, parity, Bool.not_xor, Bool.xor_not]

/-- Settles O30: the PC has been toggled n times, and no run writes the ROM it fetches from. -/
theorem fetchAddressAlternates : Obligations.FetchAddressAlternates := by
  unfold Obligations.FetchAddressAlternates
  intro n s t hclk h
  have hpc := run_pc_of_clk_high hclk h
  obtain ⟨-, -, hrom, -, -⟩ := run_unwrittenAgree n s t h
  refine ⟨hpc, ?_⟩
  rw [fetch_eq, hpc]
  simp only [hrom]

/-! ### The observer -/

/-- The observation reads five cells of the state (R140). -/
theorem observe_eq (s : State) :
    observe s = { a := s.a, b := s.b, pc := s.pc, ram0 := s.ram[0][0], ram1 := s.ram[1][0] } := by
  simp only [observe, ffRead_eq, ramRead_eq]
  rfl

/-- Settles O38: the observer hands back the block it was given, and the ports are the observation's fields. -/
theorem observerReadsFiveBitsAndChangesNothing : Obligations.ObserverReadsFiveBitsAndChangesNothing := by
  unfold Obligations.ObserverReadsFiveBitsAndChangesNothing
  exact fun k => ⟨rfl, observe_eq k.cpu, rfl⟩

/-! ### What a direct component call can do -/

/-- A raw computation that succeeds had a first call that succeeded. -/
theorem bind_eq_ok {α β : Type} {x : Except Fault α} {f : α → Except Fault β} {b : β}
    (h : (x >>= f) = .ok b) : ∃ a, x = .ok a ∧ f a = .ok b := by
  cases x with
  | error e => exact nomatch h
  | ok a => exact ⟨a, rfl, h⟩

/-- What a direct call that keeps its contract can do: nothing, replace one flip-flop, or replace the RAM (R263, log 28). -/
theorem callComponent_ok_cases {call : ComponentCall} {s t : State} {l : List Bit}
    (h : callComponent call s = .ok (t, l)) :
    t = s ∨ (∃ q cell, t = withFlipFlop s q cell) ∨ ∃ ram, t = { s with ram := ram } := by
  cases call with
  | flipFlopRead | registerRead => cases h; exact .inl rfl
  | flipFlopClock cell =>
    obtain ⟨q, -, hq⟩ := bind_eq_ok h
    cases hq
    exact .inr (.inl ⟨q, cell, rfl⟩)
  | registerLoad | ramWrite =>
    obtain ⟨_, -, hr⟩ := bind_eq_ok h
    cases hr
    exact .inr (.inr ⟨_, rfl⟩)
  | gateNot | gateAnd | gateOr | gateXor | fullAdder | alu | controlUnit | ramRead | romRead =>
    obtain ⟨_, -, hr⟩ := bind_eq_ok h
    cases hr
    exact .inl rfl

/-- No direct call writes the ROM (R58) or the clock level. -/
theorem callComponent_frame {call : ComponentCall} {s t : State} {l : List Bit}
    (h : callComponent call s = .ok (t, l)) : t.rom = s.rom ∧ t.clk = s.clk := by
  rcases callComponent_ok_cases h with rfl | ⟨q, cell, rfl⟩ | ⟨ram, rfl⟩
  · exact ⟨rfl, rfl⟩
  · exact ⟨withFlipFlop_rom s q cell, withFlipFlop_clk s q cell⟩
  · exact ⟨rfl, rfl⟩

/-- A direct call that faults stops a running block and leaves its state (R138, R202). -/
theorem testAct_call_of_error {call : ComponentCall} {s : State} {f : Fault} (h : callComponent call s = .error f) :
    testAct (.call call) ⟨s, .running⟩ = (⟨s, .faulted f⟩, .nothing) := by
  simp only [testAct, h]

/-- A direct call that keeps its contract leaves a running block running, in the call's state. -/
theorem testAct_call_of_ok {call : ComponentCall} {s t : State} {l : List Bit}
    (h : callComponent call s = .ok (t, l)) : testAct (.call call) ⟨s, .running⟩ = (⟨t, .running⟩, .bits l) := by
  simp only [testAct, h]

/-- Settles O42: what the block becomes after a call, and what a call that keeps its contract can write. -/
theorem faultingCallChangesNoState : Obligations.FaultingCallChangesNoState := by
  unfold Obligations.FaultingCallChangesNoState
  refine fun call s => ⟨fun f h => ?_, fun t l h => ⟨testAct_call_of_ok h, callComponent_frame h⟩⟩
  rw [testAct_call_of_error h]
  exact ⟨rfl, rfl⟩

end Sys2Proof.Machine

/-! ## LOAD and STORE (spec/42_load_store.md) -/

namespace Sys2Proof.Machine

/-! ### The opcode and the field -/

/-- The masked integer view of a word determines its opcode bits (R83, R88). -/
theorem opcode_of_wordToI_and {w : Word8} {op0 op1 : Bit}
    (h : wordToI w &&& 0xC0 = op0.toNat * 128 + op1.toNat * 64) : w[0] = op0 ∧ w[1] = op1 := by
  rw [wordToI_and_opcodeMask] at h
  have := w[0].toNat_le; have := w[1].toNat_le; have := op0.toNat_le; have := op1.toNat_le
  have inj := Function.LeftInverse.injective Bool.ofNat_toNat
  exact ⟨inj (by omega), inj (by omega)⟩

/-- A choice by the derived address sets field 00 against fields 01, 10 and 11 (R86). -/
theorem ite_derivedAddr {α : Type} (f2 f3 : Bit) (x y : α) :
    (if derivedAddr f2 f3 then x else y) = if f2 = false ∧ f3 = false then y else x := by
  cases f2 <;> cases f3 <;> rfl

/-! ### The RAM word a STORE replaces -/

/-- Replacing RAM[0] keeps the other three words (R55). -/
theorem ram_set_zero (ram : Ram) (d : Word4) : ram.set 0 d = #v[d, ram[1], ram[2], ram[3]] := by
  rw [vector4_eta (ram.set 0 d)]
  simp

/-- Replacing RAM[1] keeps the other three words (R55). -/
theorem ram_set_one (ram : Ram) (d : Word4) : ram.set 1 d = #v[ram[0], d, ram[2], ram[3]] := by
  rw [vector4_eta (ram.set 1 d)]
  simp

/-- A memory write leaves every other address as it was (R55). -/
theorem memRead_memWrite_ne (s : State) {k j : RamAddr} (d : Word4) (h : j ≠ k) :
    memRead (memWrite s k d) j = memRead s j := by
  rw [memRead, memWrite_ram, ramRead_ramWrite, if_neg fun hw => h hw.2.symm, memRead]

/-! ### The two instructions -/

/-- Settles O18: the masked word is the opcode 00, and LOAD clocks bit 0 of the word at the derived address into A. -/
theorem loadTakesBitZeroOfTheAddressedWord : Obligations.LoadTakesBitZeroOfTheAddressedWord := by
  unfold Obligations.LoadTakesBitZeroOfTheAddressedWord
  refine ⟨fun w h => ?_, fun f2 f3 s => ?_⟩
  · obtain ⟨h0, h1⟩ := opcode_of_wordToI_and (op0 := false) (op1 := false) h
    simp [decode, controlUnit, h0, h1]
  · rw [exec_load, operandAddr, activeBit_memRead_zext2, ite_derivedAddr]
    rfl

/-- Settles O19: the masked word is the opcode 01, and STORE replaces the word at the derived address. -/
theorem storeWritesTheWidenedAccumulator : Obligations.StoreWritesTheWidenedAccumulator := by
  unfold Obligations.StoreWritesTheWidenedAccumulator
  refine ⟨fun w h => ?_, fun f2 f3 s => ?_⟩
  · obtain ⟨h0, h1⟩ := opcode_of_wordToI_and (op0 := false) (op1 := true) h
    simp [decode, controlUnit, h0, h1]
  · rw [exec_store, memWrite, operandAddr, ramWrite_zext2, ite_derivedAddr, ram_set_zero, ram_set_one]
    rfl

/-! ### Frames -/

/-- Settles O23: the execute stage clocks A, or the instruction is a STORE. -/
theorem accumulatorInstructionsFrame : Obligations.AccumulatorInstructionsFrame := by
  unfold Obligations.AccumulatorInstructionsFrame
  intro i s t hi h
  rcases exec_shape i s with ⟨v, hs⟩ | ⟨f2, f3, rfl, -⟩
  · cases hs.symm.trans h
    exact ⟨rfl, rfl, rfl, rfl, fun _ => rfl⟩
  · simp at hi

/-- Settles O24: STORE is one memory write, at the operand address. -/
theorem storeFrame : Obligations.StoreFrame := by
  unfold Obligations.StoreFrame
  intro f2 f3 s t h
  cases (exec_store f2 f3 s).symm.trans h
  exact ⟨rfl, rfl, rfl, rfl, rfl, fun k => memRead_memWrite_ne s (widen s.a)⟩

end Sys2Proof.Machine

/-! ## ADD and XOR (spec/43_add_xor.md) -/

namespace Sys2Proof.Machine

/-! ### The sum and the carry -/

/-- The accumulator's flip-flop on its one field (R11, R22). -/
theorem clockA_eq (s : State) (v : Bit) : clockA s v = { s with a := if s.clk = true then v else s.a } := rfl

/-- With no carry-in the carry-out is AND(a, b), whatever the operation (R106, R111). -/
theorem alu1_cout_of_no_carryIn (a b op0 op1 : Bit) : (alu1 a b false op0 op1).cout = (a && b) := by
  rw [alu1_cout, fullAdder_cout, Bool.and_false, Bool.or_false]

/-- The sum of two bits modulo 2 is their exclusive or (R160, R162). -/
theorem add_toNat_mod_two (a b : Bit) : decide ((a.toNat + b.toNat) % 2 = 1) = (a ^^ b) := by
  cases a <;> cases b <;> rfl

/-- Settles O20: the masked word is the opcode 10, and the ALU's sum is clocked into A. -/
theorem addWritesTheSumAndDropsTheCarry : Obligations.AddWritesTheSumAndDropsTheCarry := by
  unfold Obligations.AddWritesTheSumAndDropsTheCarry
  refine ⟨fun w h => ?_, fun a b => alu1_cout_of_no_carryIn a b true false, fun _ => rfl, fun s => ?_⟩
  · obtain ⟨h0, h1⟩ := opcode_of_wordToI_and (op0 := true) (op1 := false) h
    simp [decode, controlUnit, h0, h1]
  · rw [exec_add, clockA_eq, add_toNat_mod_two]

/-- Settles O21: the masked word is the opcode 11, and the ALU's exclusive or is clocked into A. -/
theorem xorWritesTheExclusiveOr : Obligations.XorWritesTheExclusiveOr := by
  unfold Obligations.XorWritesTheExclusiveOr
  refine ⟨fun w h => ?_, fun a b => alu1_cout_of_no_carryIn a b true true, fun _ => rfl, fun s => ?_⟩
  · obtain ⟨h0, h1⟩ := opcode_of_wordToI_and (op0 := true) (op1 := true) h
    simp [decode, controlUnit, h0, h1]
  · rw [exec_xor, clockA_eq]

/-! ### Exchanging ADD and XOR -/

/-- ADD and XOR have one effect: with no carry-in the sum is the exclusive or (R162). -/
theorem exec_add_eq_exec_xor (s : State) : exec .add s = exec .xor s := (exec_add s).trans (exec_xor s).symm

/-- The instructions are equal, or one is ADD and the other XOR (R162). -/
def EqUpToAddXor (i j : Instr) : Prop := i = j ∨ (i = .add ∧ j = .xor) ∨ (i = .xor ∧ j = .add)

/-- Instructions equal up to exchanging ADD and XOR have one effect (R162). -/
theorem exec_eq_of_eqUpToAddXor {i j : Instr} (h : EqUpToAddXor i j) (s : State) : exec i s = exec j s := by
  rcases h with rfl | ⟨rfl, rfl⟩ | ⟨rfl, rfl⟩
  · rfl
  · exact exec_add_eq_exec_xor s
  · exact (exec_add_eq_exec_xor s).symm

/-- No instruction reads the ROM: over another ROM the execute stage does the same (R58). -/
theorem exec_with_rom (i : Instr) (s : State) (rom : Rom) :
    ∃ t, exec i s = .next t ∧ exec i { s with rom := rom } = .next { t with rom := rom } := by
  cases i <;> exact ⟨_, rfl, rfl⟩

/-- A step over a ROM that differs in exchanged ADD and XOR words leads to the same state over that ROM (R162). -/
theorem step_with_exchanged_rom (s : State) {rom : Rom}
    (h : ∀ k : RomAddr, EqUpToAddXor (decode rom[k.val]) (decode s.rom[k.val])) :
    ∃ t, step s = .next t ∧ step { s with rom := rom } = .next { t with rom := rom } := by
  obtain ⟨t, hs, hrom⟩ := exec_with_rom (decode (fetch s)) s rom
  have fetched : EqUpToAddXor (decode (fetch { s with rom := rom })) (decode (fetch s)) := h (zext3 s.pc)
  rw [← exec_eq_of_eqUpToAddXor fetched] at hrom
  exact ⟨updatePc t, step_of_exec hs, step_of_exec hrom⟩

/-- The trace over a ROM that differs in exchanged ADD and XOR words is the same, since the observation shows no ROM word
(R140, R162) and no step writes the ROM (R58). -/
theorem traceAfter_with_exchanged_rom (n : Nat) (s : State) {rom : Rom}
    (h : ∀ k : RomAddr, EqUpToAddXor (decode rom[k.val]) (decode s.rom[k.val])) :
    traceAfter n { s with rom := rom } = traceAfter n s := by
  induction n generalizing s with
  | zero => rfl
  | succ n ih =>
    obtain ⟨t, hs, hrom⟩ := step_with_exchanged_rom s h
    obtain ⟨-, -, kept⟩ := step_frame hs
    rw [traceAfter_succ_of_next n hs, traceAfter_succ_of_next n hrom, ih t (kept ▸ h)]
    rfl

/-- Settles O22: one effect in every state, and the traces by induction on their length. -/
theorem addAndXorCannotBeToldApart : Obligations.AddAndXorCannotBeToldApart := by
  unfold Obligations.AddAndXorCannotBeToldApart
  exact ⟨exec_add_eq_exec_xor, fun n s _ => traceAfter_with_exchanged_rom n s⟩

end Sys2Proof.Machine

/-! ## Faults and the host (spec/60_exceptions.md) -/

namespace Sys2Proof.Machine

/-! ### Runs of host actions -/

/-- What every action of a list keeps, the run of the list keeps (R263). -/
theorem hostRun_invariant (P : Block → Prop) (actions : List HostAction)
    (kept : ∀ action ∈ actions, ∀ k, P k → P (hostAct action k).1) (k : Block) (h : P k) : P (hostRun actions k) := by
  induction actions generalizing k with
  | nil => exact h
  | cons action rest ih =>
    obtain ⟨first, later⟩ := List.forall_mem_cons.mp kept
    exact ih later (hostAct action k).1 (first k h)

/-! ### One host action -/

/-- A faulted block ignores the step and the clock level, and observing changes nothing: only a construction replaces it
(R202, R253; log 21). -/
theorem hostAct_of_faulted {k : Block} {f : Fault} (h : k.condition = .faulted f) {action : HostAction}
    (other : ∀ romImage ramInit, action ≠ .construct romImage ramInit) : (hostAct action k).1 = k := by
  cases action with
  | construct romImage ramInit => exact absurd rfl (other romImage ramInit)
  | step => rw [hostAct, h]
  | debug => rfl
  | setClk v => rw [hostAct, h]

/-- A step leaves the block running, since every step answers a next state (R203). -/
theorem blockStep_condition (s : State) : (blockStep s).condition = .running := by
  obtain ⟨t, hs⟩ := step_total s
  rw [blockStep, hs]

/-- No action of the shipped host stops a running block (R203, R263). -/
theorem hostAct_of_running {k : Block} (h : k.condition = .running) (action : HostAction) :
    (hostAct action k).1.condition = .running := by
  cases action with
  | construct romImage ramInit => rfl
  | step => rw [hostAct, h]; exact blockStep_condition k.cpu
  | debug => exact h
  | setClk v => rw [hostAct, h]

/-! ### Lists of host actions -/

/-- Settles O40: no action of the list changes the block, so the run does not. -/
theorem faultedBlockStaysFaulted : Obligations.FaultedBlockStaysFaulted := by
  unfold Obligations.FaultedBlockStaysFaulted
  intro actions k f h noConstruction
  refine hostRun_invariant (· = k) actions (fun action mem j hj => ?_) k rfl
  subst hj
  exact hostAct_of_faulted h fun romImage ramInit eq => noConstruction romImage ramInit (eq ▸ mem)

/-- Settles O41: every action keeps the block running, so the run does. -/
theorem shippedHostNeverFaultsTheBlock : Obligations.ShippedHostNeverFaultsTheBlock := by
  unfold Obligations.ShippedHostNeverFaultsTheBlock
  exact fun actions =>
    hostRun_invariant (·.condition = .running) actions fun action _ _ h => hostAct_of_running h action

end Sys2Proof.Machine

/-! ## Construction, runs and hazards (spec/70_reset_and_hazards.md) -/

namespace Sys2Proof.Machine

/-! ### Construction with any parameters -/

/-- A new RAM holds zeros (R24, R40). -/
theorem ramRead_ramInitial (k : RamAddr) : ramRead ramInitial k = #v[false, false, false, false] := by
  revert k
  decide

/-- A word that `RAM_INIT` does not write stays as it was (R250). -/
theorem applyRamInit_of_unwritten (ram : Ram) {ramInit : RamInit} {k : RamAddr} (h : ∀ d, (k, d) ∉ ramInit) :
    ramRead (applyRamInit ram ramInit) k = ramRead ram k := by
  rw [ramRead_eq, ramRead_eq]
  exact applyRamInit_induction (fun j d => j = k → d = ram[k.val]) ramInit ram (fun j hj => by rw [hj])
    (fun j d hd hj => absurd (hj ▸ hd) (h d)) k rfl

/-- A word that `RAM_INIT` writes holds the last value written to it (R51, R250). -/
theorem applyRamInit_of_last_write (ram : Ram) (before : RamInit) {after : RamInit} {k : RamAddr} (d : Word4)
    (h : ∀ d', (k, d') ∉ after) : ramRead (applyRamInit ram (before ++ (k, d) :: after)) k = d := by
  rw [applyRamInit_append, applyRamInit, applyRamInit_of_unwritten _ h, ramRead_ramWrite, if_pos ⟨rfl, rfl⟩]

/-- Settles O2: the writes before the last one to a word are overwritten, and those after it leave the word alone. -/
theorem constructionAppliesItsParameters : Obligations.ConstructionAppliesItsParameters := by
  unfold Obligations.ConstructionAppliesItsParameters
  refine fun romImage ramInit k => ⟨rfl, rfl, rfl, rfl, rfl, fun unwritten => ?_, ?_⟩
  · exact (applyRamInit_of_unwritten ramInitial unwritten).trans (ramRead_ramInitial k)
  · rintro before after d rfl last
    exact applyRamInit_of_last_write ramInitial before d last

/-! ### The two trace conventions -/

/-- Both traces of `n` steps have `n` observations, since no step stops (R203, R262). -/
theorem trace_length (n : Nat) (s : State) : (traceAfter n s).length = n ∧ (traceBefore n s).length = n := by
  induction n generalizing s with
  | zero => exact ⟨rfl, rfl⟩
  | succ n ih =>
    obtain ⟨t, hs⟩ := step_total s
    obtain ⟨ihAfter, ihBefore⟩ := ih t
    rw [traceAfter_succ_of_next n hs, traceBefore_succ_of_next n hs, List.length_cons, List.length_cons, ihAfter,
      ihBefore]
    exact ⟨rfl, rfl⟩

/-- The start and then the trace after each step are the trace before each step and then the end (R262). -/
theorem observe_cons_traceAfter {n : Nat} {s t : State} (h : RunsTo n s t) :
    observe s :: traceAfter n s = traceBefore n s ++ [observe t] := by
  induction n generalizing s with
  | zero =>
    rw [(runsTo_zero s t).mp h]
    rfl
  | succ n ih =>
    obtain ⟨u, hs, hu⟩ := (runsTo_succ n s t).mp h
    rw [traceAfter_succ_of_next n hs, traceBefore_succ_of_next n hs, ih hu, List.cons_append]

/-- Settles O31, by induction on the number of steps. -/
theorem traceConventionsDifferByTheEnds : Obligations.TraceConventionsDifferByTheEnds := by
  unfold Obligations.TraceConventionsDifferByTheEnds
  intro n s t h
  obtain ⟨lengthAfter, lengthBefore⟩ := trace_length n s
  exact ⟨lengthAfter, lengthBefore, observe_cons_traceAfter h⟩

/-! ### STORE, then LOAD, at clock level 1 -/

/-- A step runs the instruction that the fetched word decodes to, then stage 5 (R132, R134, R135). -/
theorem step_of_decode {s t : State} {i : Instr} (h : decode (fetch s) = i) (hexec : exec i s = .next t) :
    step s = .next (updatePc t) := by
  subst h
  exact step_of_exec hexec

/-- A step that runs a STORE leaves A, widened, at the operand address (R151). -/
theorem step_store_of_clk_high {s : State} {f2 f3 : Bit} (hclk : s.clk = true) (h : decode (fetch s) = .store f2 f3) :
    ∃ t, step s = .next t ∧ memRead t (operandAddr f2 f3) = widen s.a := by
  refine ⟨_, step_of_decode h (exec_store f2 f3 s), ?_⟩
  rw [memRead, updatePc_ram, memWrite_ram, ramRead_ramWrite, if_pos ⟨hclk, rfl⟩]

/-- A step that runs a LOAD takes bit 0 of the word at the operand address into A and keeps the RAM (R150). -/
theorem step_load_of_clk_high {s : State} {f2 f3 : Bit} (hclk : s.clk = true) (h : decode (fetch s) = .load f2 f3) :
    ∃ t, step s = .next t ∧ t.a = activeBit (memRead s (operandAddr f2 f3)) ∧ t.ram = s.ram := by
  refine ⟨_, step_of_decode h (exec_load f2 f3 s), ?_, rfl⟩
  rw [updatePc_a, clockA_a, hclk, ffClock_one]

/-- The step after a step fetches the same ROM's word at the other PC (R131, R135). -/
theorem fetch_of_step {s t : State} (hclk : s.clk = true) (h : step s = .next t) :
    fetch t = romRead s.rom (zext3 (!s.pc)) := by
  obtain ⟨-, -, hrom⟩ := step_frame h
  rw [fetch, ffRead_eq, hrom, step_pc_of_clk_high hclk h]

/-- Settles O36: the LOAD reads back bit 0 of the word the STORE wrote, and writes no RAM word itself. -/
theorem storeThenLoadReadsTheAccumulator : Obligations.StoreThenLoadReadsTheAccumulator := by
  unfold Obligations.StoreThenLoadReadsTheAccumulator
  intro s f2 f3 g2 g3 hclk haddr hstore hload
  have sameAddr : operandAddr g2 g3 = operandAddr f2 f3 := congrArg zext2 haddr.symm
  obtain ⟨m, storeStep, stored⟩ := step_store_of_clk_high hclk hstore
  obtain ⟨-, mclk, -⟩ := step_frame storeStep
  rw [← fetch_of_step hclk storeStep] at hload
  obtain ⟨t, loadStep, loaded, ram⟩ := step_load_of_clk_high (mclk.trans hclk) hload
  have run : RunsTo 2 s t := (runsTo_succ 1 s t).mpr ⟨m, storeStep, (runsTo_succ 0 m t).mpr ⟨t, loadStep, rfl⟩⟩
  refine ⟨t, run, ?_, ?_, ?_⟩
  · rw [loaded, sameAddr, stored]
    rfl
  · exact (run_pc_of_clk_high hclk run).trans (Bool.xor_false s.pc)
  · rw [memRead, ram]
    exact stored

/-! ### The shipped host's actions -/

/-- `step()` on a running block puts the next state in it and returns nothing (R263). -/
theorem hostAct_step_of_next {s t : State} (h : step s = .next t) :
    hostAct .step ⟨s, .running⟩ = (⟨t, .running⟩, none) := by
  rw [hostAct, blockStep, h]

/-- Settles O39: every step has a next state, and the other actions are what `hostAct` says of a running block. -/
theorem hostActionsOnARunningBlock : Obligations.HostActionsOnARunningBlock := by
  unfold Obligations.HostActionsOnARunningBlock
  intro s romImage ramInit v
  obtain ⟨t, hs⟩ := step_total s
  exact ⟨rfl, rfl, ⟨t, hs, hostAct_step_of_next hs⟩, rfl⟩

end Sys2Proof.Machine

/-! ## Decode and encode, and the numbering of the opcode table (spec/30_encoding.md, spec/00_scope.md) -/

namespace Sys2Proof

/-- No instruction is reserved (R89). -/
theorem instr_wellFormed (i : Instr) : i.wellFormed = true := by
  cases i <;> rfl

/-- A word decodes as its canonical word does (R90, R92). -/
theorem decode_canonicalWord (w : Word8) : decode (canonicalWord w) = decode w := by
  rw [← encode_decode, decode_encode]

/-- The opcode table's number of a word stands for the instruction the word decodes to (R83). -/
theorem decodeTableWord_wordToI (w : Word8) : decodeTableWord 8 (wordToI w) = some (decode w) := by
  rw [decodeTableWord, if_pos le_rfl, Machine.wordOfI_wordToI_mod]

/-- The integer view of the word of a number is the number modulo 2^8: they have the same lower eight bits (R10). -/
theorem wordToI_wordOfI (n : Nat) : wordToI (wordOfI n) = n % 2 ^ 8 := by
  rw [Machine.wordToI_eq_ofBits, ← Nat.ofBits_testBit]
  congr 1
  funext i
  rw [Machine.wordOfI_getElem, Nat.sub_sub_self (Nat.le_of_lt_succ i.isLt)]

/-- Settles O5: `decode` inverts `encode`, `encode` after `decode` is the canonical word, and `wordToI` and `wordOfI`
are inverse on the numbers of eight bits. -/
theorem decodeAndEncodeAgree : Obligations.DecodeAndEncodeAgree := by
  unfold Obligations.DecodeAndEncodeAgree
  refine ⟨fun i => ?_, fun w => ?_, fun w => ?_, fun n hn => ?_⟩
  · exact ⟨instr_wellFormed i, decode_encode i⟩
  · exact ⟨encode_decode w, decode_canonicalWord w⟩
  · exact ⟨Machine.wordOfI_wordToI w, decodeTableWord_wordToI w⟩
  · exact (wordToI_wordOfI n).trans (Nat.mod_eq_of_lt hn)

/-- Settles O3, by running the decoder on the five words. -/
theorem wordsWrittenFromTheSpecDecode : Obligations.WordsWrittenFromTheSpecDecode := by
  unfold Obligations.WordsWrittenFromTheSpecDecode
  exact ⟨rfl, rfl, rfl, rfl, rfl⟩

end Sys2Proof
